-- ==== Sys2Proof/Word.lean ====
section
/-! DEFINITION. The word types of AFX: bytes, 32-bit words and 23-bit window offsets (rules R8, R40). -/

namespace Sys2Proof

/-- A byte (rule R8). -/
abbrev Byte := BitVec 8

/-- A 32-bit register value or bus datum (rules R18, R40). -/
abbrev Word := BitVec 32

/-- A byte offset in the AFX window, 0x000000 to 0x7FFFFF (rule R40). -/
abbrev Offset := BitVec 23

end Sys2Proof
end

