-- ==== Sys2Proof/Syntax.lean ====
section
/-! DEFINITION. The commands of AFX, one constructor per row of the opcode table (rule R57). -/

namespace Sys2Proof

/-- A command. There is no fence, barrier or synchronisation command (rule R51), no hint (R60) and no maintenance command
(R54): every word but the five is illegal (R59). Operands are implicit (rule R58), so only an illegal word carries data: its
two fields of format CMDW (rule R56), kept because nothing else tells illegal words apart. -/
inductive Instr where
  /-- OPC 0x0 (rule R67). -/
  | nop
  /-- OPC 0x1 (rule R68). -/
  | init
  /-- OPC 0x2, mnemonic SEAL (rule R69). -/
  | sealCmd
  /-- OPC 0x3, mnemonic OPEN (rule R70). -/
  | openCmd
  /-- OPC 0x4 (rule R73). -/
  | zeroize
  /-- Any word not matched above: RSVD (bits 31:4) and OPC (bits 3:0) (rules R59, R74). -/
  | illegal (rsvd : BitVec 28) (opc : BitVec 4)
  deriving DecidableEq, Repr

end Sys2Proof
end

