-- ==== Sys2Proof/WellFormed.lean ====
section
/-! DEFINITION. Which terms of Instr stand for a command word. -/

namespace Sys2Proof

/-- An illegal word is one with a bit of RSVD set or with OPC in 0x5 to 0xF (rules R59, R74); the five commands have no
field to check. -/
def Instr.wf : Instr → Bool
  | .nop => true
  | .init => true
  | .sealCmd => true
  | .openCmd => true
  | .zeroize => true
  | .illegal rsvd opc => rsvd != 0#28 || 5 ≤ opc.toNat

end Sys2Proof
end

