-- ==== Sys2Proof/Decode.lean ====
section
/-! DEFINITION. Command words: byte order, fields, decoder and encoder (rules R43, R56, R57, R65). -/

namespace Sys2Proof

/-- Byte `k` of a word, least significant first: bits `[8k+7:8k]` (rule R43). -/
def byteOf (w : Word) (k : Nat) : Byte := w.extractLsb' (8 * k) 8

/-- The four bytes of a word in the order they lie in the window (rule R43). -/
def wordBytes (w : Word) : List Byte := [byteOf w 0, byteOf w 1, byteOf w 2, byteOf w 3]

/-- The word whose bytes, lowest offset first, are these (rule R43). -/
def ofBytes (b0 b1 b2 b3 : Byte) : Word := b3 ++ b2 ++ b1 ++ b0

/-- Field OPC, bits 3:0 (rule R56). -/
def opcField (w : Word) : BitVec 4 := w.extractLsb' 0 4

/-- Field RSVD, bits 31:4 (rule R56). -/
def rsvdField (w : Word) : BitVec 28 := w.extractLsb' 4 28

/-- The word of format CMDW with these fields (rule R56). -/
def cmdWord (rsvd : BitVec 28) (opc : BitVec 4) : Word := rsvd ++ opc

/-- Decoding of a latched word (rule R65). Every word is one of the five commands or illegal (rule R59). -/
def decodeWord (w : Word) : Instr :=
  if rsvdField w ≠ 0#28 then .illegal (rsvdField w) (opcField w)
  else if opcField w = 0x0#4 then .nop
  else if opcField w = 0x1#4 then .init
  else if opcField w = 0x2#4 then .sealCmd
  else if opcField w = 0x3#4 then .openCmd
  else if opcField w = 0x4#4 then .zeroize
  else .illegal (rsvdField w) (opcField w)

/-- Why a byte string holds no command. -/
inductive DecodeError where
  /-- Fewer than the four bytes of a command word (rule R56). -/
  | truncated
  deriving DecidableEq, Repr

/-- Decoding of a byte string: the command in its first four bytes and the rest, or a refusal by name. -/
def decode : List Byte → Except DecodeError (Instr × List Byte)
  | b0 :: b1 :: b2 :: b3 :: rest => .ok (decodeWord (ofBytes b0 b1 b2 b3), rest)
  | _ => .error .truncated

/-- The word of a command, from the opcode map (rule R57). -/
def encode : Instr → Word
  | .nop => cmdWord 0#28 0x0#4
  | .init => cmdWord 0#28 0x1#4
  | .sealCmd => cmdWord 0#28 0x2#4
  | .openCmd => cmdWord 0#28 0x3#4
  | .zeroize => cmdWord 0#28 0x4#4
  | .illegal rsvd opc => cmdWord rsvd opc

/-- The command word whose lowest `nbits` bits are those of `w`, every bit above them zero. -/
def tableWord (nbits w : Nat) : Word := BitVec.ofNat 32 (w % 2 ^ nbits)

/-- The command this decoder reads from the word `w` of the opcode table (bit 0 least significant), laid out as the four
bytes the window holds. A command is 32 bits (rule R56), so a longer one is none. -/
def decodeTableWord (nbits w : Nat) : Option Instr :=
  if nbits ≤ 32 then
    match decode (wordBytes (tableWord nbits w)) with
    | .ok (i, _) => some i
    | .error _ => none
  else none

end Sys2Proof
end

