-- ==== Sys2Proof/Config.lean ====
section
/-! DEFINITION. What an implementation of AFX fixes (rule R7): capacities, lanes and the collaborators' functions. -/

namespace Sys2Proof

/-- The nonce mode of an instance: the source's mode flag, short or extended nonce (rule R23). -/
inductive NonceMode where
  /-- 8-byte nonce, MODE = 0. -/
  | short
  /-- 24-byte nonce, MODE = 1. -/
  | extended
  deriving DecidableEq, Repr

namespace Config

/-- The parameters of an implementation (rule R7; 93_implementation_defined.md section 1.2). -/
structure Params where
  /-- AD_CAP, the size of ADBUF in bytes. -/
  adCap : Nat
  /-- D_CAP, the size of DBUF in bytes. -/
  dCap : Nat
  /-- W, the number of byte lanes of the KXU. -/
  lanes : Nat
  /-- KS(key, mode, nonce, p): byte p of the keystream (rule R86). -/
  ks : List Byte → NonceMode → List Byte → Nat → Byte
  /-- MAC(otk, m): the 16-byte tag (rule R89). -/
  mac : Vector Byte 32 → List Byte → Vector Byte 16

/-- The legal values of the sizes (rule R7). -/
structure Params.Legal (P : Params) : Prop where
  adCap_dvd : 4 ∣ P.adCap
  adCap_ge : 4 ≤ P.adCap
  adCap_le : P.adCap ≤ 2 ^ 20
  dCap_dvd : 4 ∣ P.dCap
  dCap_ge : 16 ≤ P.dCap
  dCap_le : P.dCap ≤ 2 ^ 22
  lanes_mem : P.lanes ∈ [1, 2, 4, 8, 16, 32, 64]

/-- Which of the 2^18 legal values AD_CAP has: an open parameter, no body (log 1). -/
opaque adCapChoice : BitVec 18

/-- Which of its legal values D_CAP has: an open parameter, no body (log 1). -/
opaque dCapChoice : Nat

/-- Which of its seven legal values W has: an open parameter, no body (log 1). -/
opaque lanesChoice : Nat

/-- The keystream function of the stream-cipher collaborator: any total function (rules R7, R86; log 2). -/
opaque ks : List Byte → NonceMode → List Byte → Nat → Byte

/-- The tag function of the MAC collaborator: any total function (rules R7, R89; log 2). -/
opaque mac : Vector Byte 32 → List Byte → Vector Byte 16

/-- The implementation the machine runs on. AD_CAP runs over the multiples of 4 from 4 to 2^20, D_CAP over the multiples
of 4 from 16 to 2^22, W over 1, 2, 4, .. 64 (rule R7). -/
def params : Params where
  adCap := 4 * (adCapChoice.toNat + 1)
  dCap := 4 * (dCapChoice % (2 ^ 20 - 3) + 4)
  lanes := 2 ^ (lanesChoice % 7)
  ks := ks
  mac := mac

end Config

end Sys2Proof
end

