-- ==== Sys2Proof/Machine/State.lean ====
section
/-! DEFINITION. The state of AFX as plain data, its environment's inputs, and the reset values (rules R13, R39). -/

namespace Sys2Proof.Machine

/-- Why the machine would stop with a fault. It has NO constructor: no rule of the spec stops the block. Its one
unrecoverable error is the FAULT state, a next state in which CMD writes are ignored (rule R101), and a bus ERROR is a
response (rule R103). Nobody raises a fault, which is safe (log 17). -/
inductive Fault where
  deriving DecidableEq, Repr

/-- Why an instruction has no meaning. -/
inductive Refusal where
  /-- Raised by an arm of exec for an instruction that is not modelled yet; no arm raises it now. Safe. -/
  | notModelled (mnemonic : String)
  deriving DecidableEq, Repr

/-- STATUS.ERRCODE (rule R100); codes 7 to 15 are never produced. -/
inductive ErrCode where
  | ok
  | invalidKeySize
  | invalidNonceSize
  | authFailed
  | notInitialised
  | illegalCommand
  | lengthError
  deriving DecidableEq, Repr

/-- CFG (rule R20). -/
structure Cfg where
  /-- Bit 0, EXT: the mode the next INIT binds. -/
  ext : Bool
  /-- Bit 1, IE: interrupt enable. -/
  ie : Bool
  deriving DecidableEq, Repr

/-- STATUS (rule R22). -/
structure Status where
  busy : Bool
  done : Bool
  instValid : Bool
  mode : NonceMode
  authOk : Bool
  fault : Bool
  bovr : Bool
  errcode : ErrCode
  deriving DecidableEq, Repr

/-- The buffers NONCE, ADBUF and DBUF: (window offset, byte) pairs (rules R31 to R33). -/
abbrev Memory := List Host.Cell

/-- The size of a bus access: 1, 2 or 4 bytes (rule R40). -/
inductive Size where
  | byte
  | half
  | word
  deriving DecidableEq, Repr

/-- A host bus access, MemRead or MemWrite (rule R40). -/
inductive Access where
  | read (off : Offset) (size : Size)
  | write (off : Offset) (size : Size) (value : Word)
  deriving DecidableEq, Repr

/-- A bus response: OKAY or ERROR, and the read data (0 for a write and for an ERROR) (rule R40). -/
structure Response where
  okay : Bool
  data : Word
  deriving DecidableEq, Repr

/-- One thing that can happen next. The environment's inputs, and the engine's turn: a command completes at any time
after its acceptance (rules R64, R124), so WHEN is the environment's choice (log 4). -/
inductive Event where
  /-- The host presents an access at the bus port. -/
  | host (a : Access)
  /-- The command in progress, if any, completes now. -/
  | engine
  /-- `afx_rst` is asserted (rule R113). -/
  | hardReset
  /-- The key store presents this key from now on (rule R88). -/
  | presentKey (key : List Byte)
  /-- The keystream collaborator stops or starts answering (rule R104). -/
  | ksAnswers (b : Bool)
  /-- The MAC collaborator stops or starts answering (rule R104). -/
  | macAnswers (b : Bool)
  deriving DecidableEq, Repr

/-- One call AFX makes at a collaborator port (rules R86, R89). -/
inductive PortCall where
  /-- The keystream byte at this position, for this mode and nonce. -/
  | ks (mode : NonceMode) (nonce : List Byte) (pos : Nat)
  /-- The tag of this message under this one-time key. -/
  | mac (otk : Vector Byte 32) (message : List Byte)
  deriving DecidableEq, Repr

/-- The environment of the block: its inputs and what crossed its ports. Not AFX state (rule R13), so no reset of the
block touches it. -/
structure Env where
  /-- What happens next, first event first (log 4). -/
  sched : List Event
  /-- An access that the busy hold keeps waiting (rule R117). -/
  port : Option Access
  /-- The response of the last access performed. -/
  response : Option Response
  /-- The key the key store presents (rule R88). -/
  key : List Byte
  /-- Whether the keystream collaborator answers (rule R104). -/
  ksAnswers : Bool
  /-- Whether the MAC collaborator answers (rule R104). -/
  macAnswers : Bool
  /-- The collaborator calls made so far, oldest first (log 10). -/
  calls : List PortCall
  deriving DecidableEq, Repr

/-- The state of AFX (rule R13) and of its environment. ID, OVERHEAD, AD_CAP_R, D_CAP_R and NONCE_SIZE are computed when
read, CMD and CTRL read as zero: none of them has storage (rules R19, R21, R24, R28 to R30). -/
structure State where
  cfg : Cfg
  status : Status
  /-- AD_LEN (rule R25). -/
  adLen : Word
  /-- D_LEN (rule R26). -/
  dLen : Word
  /-- NONCE_LEN[7:0] (rule R27). -/
  nonceLen : BitVec 8
  /-- NONCE, ADBUF and DBUF (rules R31 to R33). -/
  mem : Memory
  /-- OTK (rule R34). -/
  otk : Vector Byte 32
  /-- ETAG (rule R35). -/
  etag : Vector Byte 16
  /-- KSTAGE (rule R36): its first W bytes; the others stay zero (log 13). -/
  kstage : Vector Byte 64
  /-- The comparator's accumulator (rule R37). -/
  acc : Byte
  /-- PEND_OPC (rule R38). -/
  pendOpc : Word
  /-- The model's own: `key_len` as sampled when the command was accepted (rules R50, R58; log 7). -/
  keyLenIn : BitVec 16
  env : Env
  deriving DecidableEq, Repr

/-- The environment at the start: nothing scheduled, no access waiting, no key bound, both collaborators answering.
DESIGN CHOICE, unsafe: the spec gives inputs no start value (log 15). -/
def Env.start : Env where
  sched := []
  port := none
  response := none
  key := []
  ksAnswers := true
  macAnswers := true
  calls := []

/-- The machine right after reset (rules R39, R113). -/
def State.reset : State where
  cfg := { ext := false, ie := false }
  status :=
    { busy := false, done := false, instValid := false, mode := .short, authOk := false, fault := false, bovr := false,
      errcode := .ok }
  adLen := 0#32
  dLen := 0#32
  nonceLen := 0#8
  mem := []
  otk := Vector.replicate 32 0#8
  etag := Vector.replicate 16 0#8
  kstage := Vector.replicate 64 0#8
  acc := 0#8
  pendOpc := 0#32
  keyLenIn := 0#16
  env := Env.start

end Sys2Proof.Machine
end

