-- ==== Sys2Proof/Machine/Flags.lean ====
section
/-! DEFINITION. Every computation on STATUS and CFG: field values, the words software reads, acceptance, completion, fault
entry, write-1-to-clear, and the interrupt line (rules R20, R22, R63, R64, R100, R101, R109, R118). -/

namespace Sys2Proof.Machine

/-- The number of an error code (rule R100). -/
def ErrCode.bits : ErrCode → BitVec 4
  | .ok => 0#4
  | .invalidKeySize => 1#4
  | .invalidNonceSize => 2#4
  | .authFailed => 3#4
  | .notInitialised => 4#4
  | .illegalCommand => 5#4
  | .lengthError => 6#4

/-- STATUS.MODE as a bit: 0 short, 1 extended (rule R22). -/
def modeBit : NonceMode → Bool
  | .short => false
  | .extended => true

/-- The mode CFG.EXT selects (rules R20, R68). -/
def modeOfExt : Bool → NonceMode
  | false => .short
  | true => .extended

/-- The word STATUS reads as; bits 7 and 31:12 are zero (rule R22). -/
def Status.toWord (st : Status) : Word :=
  0#20 ++ st.errcode.bits ++ 0#1 ++ BitVec.ofBool st.bovr ++ BitVec.ofBool st.fault ++ BitVec.ofBool st.authOk ++
    BitVec.ofBool (modeBit st.mode) ++ BitVec.ofBool st.instValid ++ BitVec.ofBool st.done ++ BitVec.ofBool st.busy

/-- The word CFG reads as; bits 31:2 are zero (rule R20). -/
def Cfg.toWord (c : Cfg) : Word := 0#30 ++ BitVec.ofBool c.ie ++ BitVec.ofBool c.ext

/-- CFG after its word is written; bits 31:2 are ignored (rule R20). -/
def Cfg.ofWord (w : Word) : Cfg where
  ext := w.getLsbD 0
  ie := w.getLsbD 1

/-- STATUS at acceptance: BUSY set, DONE cleared, nothing else (rule R63). -/
def Status.accepted (st : Status) : Status := { st with busy := true, done := false }

/-- STATUS after a CMD write that found BUSY = 1: BOVR set (rules R63, R118). -/
def Status.overrun (st : Status) : Status := { st with bovr := true }

/-- STATUS at `finish(code)`: AUTH_OK is 1 only for an OPEN (word 0x3 latched) that ends OK (rule R64). -/
def Status.finished (pend : Word) (code : ErrCode) (st : Status) : Status :=
  { st with errcode := code, authOk := pend == 0x3#32 && code == .ok, busy := false, done := true }

/-- STATUS at the fault entry (rule R101). -/
def Status.faulted (st : Status) : Status :=
  { st with fault := true, errcode := .invalidNonceSize, authOk := false, busy := false, done := true }

/-- STATUS after a write whose written bytes hold `w` (unwritten bytes zero): bit 1 clears DONE, bit 6 clears BOVR
(rules R22, R44). -/
def Status.cleared (w : Word) (st : Status) : Status :=
  { st with done := st.done && !w.getLsbD 1, bovr := st.bovr && !w.getLsbD 6 }

/-- STATUS after INIT binds an instance, or drops it (rule R68). -/
def Status.bound (valid : Bool) (mode : NonceMode) (st : Status) : Status := { st with instValid := valid, mode := mode }

/-- The interrupt output `afx_irq` (rule R109). -/
def State.afxIrq (s : State) : Bool := s.status.done && s.cfg.ie

end Sys2Proof.Machine
end

