-- ==== Sys2Proof/Machine/Ops.lean ====
section
/-! DEFINITION. The named operations over memory and registers: byte memory in canonical form, byte strings in buffers,
scrubbing, acceptance, completion, the fault entry (taking the one exception) and the resets (the only return from it). -/

namespace Sys2Proof.Machine

/-- The byte at an offset; one that is not listed reads 0, its reset value (rule R39). -/
def Memory.read : Memory → Nat → Byte
  | [], _ => 0#8
  | (k, v) :: m, a => if k = a then v else Memory.read m a

/-- Puts an entry in its place in the list. -/
def Memory.insert : Memory → Nat → Byte → Memory
  | [], a, b => [(a, b)]
  | (k, v) :: m, a, b => if a < k then (a, b) :: (k, v) :: m else (k, v) :: Memory.insert m a b

/-- Writes one byte, keeping the canonical form: offsets strictly rising, no zero byte listed. -/
def Memory.write (m : Memory) (a : Nat) (b : Byte) : Memory :=
  if b = 0#8 then m.filter fun c => c.1 != a else Memory.insert (m.filter fun c => c.1 != a) a b

/-- `len` bytes from `base` on (rule R9's `s[a..b)`). -/
def Memory.readBytes (m : Memory) (base len : Nat) : List Byte := (List.range len).map fun i => m.read (base + i)

/-- Writes a byte string from `base` on (rule R10). -/
def Memory.writeBytes : Memory → Nat → List Byte → Memory
  | m, _, [] => m
  | m, base, b :: bs => Memory.writeBytes (m.write base b) (base + 1) bs

/-- Zeroes the `len` bytes from `base` on. -/
def Memory.clear (m : Memory) (base len : Nat) : Memory := m.filter fun c => !(base ≤ c.1 && c.1 < base + len)

/-- The canonical form: offsets strictly rising, no entry equal to what an unlisted offset reads as. -/
abbrev Memory.wf (m : Memory) : Prop := m.Pairwise (fun c d => c.1 < d.1) ∧ ∀ c ∈ m, c.2 ≠ 0#8

/-- Offset of NONCE[0] (rule R31). -/
def nonceBase : Nat := 0x100

/-- Offset of ADBUF[0] (rule R32). -/
def adBase : Nat := 0x100000

/-- Offset of DBUF[0] (rule R33). -/
def dBase : Nat := 0x400000

/-- The 24 bytes NONCE has (rule R31). -/
def nonceBytes : Nat := 24

/-- TAG_BYTES (rule R6). -/
def tagBytes : Nat := 16

/-- `scrub()`: OTK, ETAG, KSTAGE and `acc` become zero (rule R99). -/
def scrub (s : State) : State :=
  { s with
    otk := Vector.replicate 32 0#8
    etag := Vector.replicate 16 0#8
    kstage := Vector.replicate 64 0#8
    acc := 0#8 }

/-- The signal `key_len`: the length of the key presented, 16 bits (rule R88). A longer key than 16 bits can count shows
the largest length (log 7). -/
def State.keyLen (s : State) : BitVec 16 := BitVec.ofNat 16 (min s.env.key.length 65535)

/-- Acceptance of a command word: PEND_OPC, BUSY, DONE, and the sample of the one input that is not AFX state
(rules R50, R58, R63). -/
def accept (w : Word) (s : State) : State :=
  { s with pendOpc := w, status := s.status.accepted, keyLenIn := s.keyLen }

/-- `finish(code)` (rule R64). -/
def finish (code : ErrCode) (s : State) : State :=
  { s with status := s.status.finished s.pendOpc code, pendOpc := 0#32 }

/-- `raise InvalidNonceSize()`, the one exception of the block: it saves the error code and FAULT, nothing else; there is
no pc, stack, mode or vector (rules R101, R106). -/
def raiseInvalidNonceSize (s : State) : State :=
  { s with status := s.status.faulted, pendOpc := 0#32 }

/-- Reset, by `afx_rst` or by CTRL.SRST, which have the same effect: every piece of AFX state takes its reset value; the
environment is not AFX state. It is the only way out of FAULT (rules R101, R113, R114). -/
def resetBlock (s : State) : State := { State.reset with env := s.env }

/-- A 4-byte write of `w` to CMD: ignored in FAULT, ignored with BOVR while BUSY, else accepted (rules R63, R101, R118). -/
def cmdWrite (w : Word) (s : State) : State :=
  if s.status.fault then s
  else if s.status.busy then { s with status := s.status.overrun }
  else accept w s

/-- The same block in another environment. -/
def State.setEnv (s : State) (e : Env) : State := { s with env := e }

/-- Gives the host a response (rule R40). -/
def respond (r : Response) (s : State) : State := { s with env := { s.env with response := some r } }

/-- Records a collaborator call (log 10). -/
def recordCalls (cs : List PortCall) (s : State) : State := { s with env := { s.env with calls := s.env.calls ++ cs } }

end Sys2Proof.Machine
end

