-- ==== Sys2Proof/Machine/Operands.lean ====
section
/-! DEFINITION. The implicit operands of the commands (rules R58, R66, R69, R70) and of bus accesses: regions, registers
and lanes (rules R18, R41, R43 to R45). -/

namespace Sys2Proof.Machine

/-- The nonce length a mode takes: NONCE_SHORT = 8, NONCE_EXT = 24 (rule R6). -/
def modeNonceSize : NonceMode → Nat
  | .short => 8
  | .extended => 24

/-- NONCE_SIZE (rule R28). -/
def nonceSize (s : State) : Nat := if s.status.instValid then modeNonceSize s.status.mode else 0

/-- The nonce a SEAL or OPEN takes: NONCE[0..ns), `ns` the size of the instance's mode (rules R31, R69). -/
def nonceOperand (s : State) : List Byte := s.mem.readBytes nonceBase (nonceSize s)

/-- The associated data ADBUF[0..AD_LEN) (rule R25). -/
def adOperand (s : State) : List Byte := s.mem.readBytes adBase s.adLen.toNat

/-- DBUF[0..n): plaintext of SEAL, ciphertext of OPEN (rules R69, R70). -/
def dataOperand (n : Nat) (s : State) : List Byte := s.mem.readBytes dBase n

/-- The received tag DBUF[n..n+16) (rules R70, R84). -/
def tagOperand (n : Nat) (s : State) : Vector Byte 16 := Vector.ofFn fun i : Fin 16 => s.mem.read (dBase + n + i.val)

/-- Writes a byte string to DBUF from byte `n` on (rule R10). -/
def writeData (n : Nat) (bs : List Byte) (s : State) : State := { s with mem := s.mem.writeBytes (dBase + n) bs }

/-- The registers of the register page (rule R18). -/
inductive Reg where
  | id | cfg | cmd | status | ctrl | adLen | dLen | nonceLen | nonceSize | overhead | adCapR | dCapR
  deriving DecidableEq, Repr

/-- What an offset falls in (rules R41, R45). -/
inductive Region where
  | reg (r : Reg)
  | reserved
  | nonce
  | adbuf
  | dbuf
  | unmapped
  deriving DecidableEq, Repr

/-- The register at a word of the register page, or reserved (rule R18). -/
def regAt (word : Nat) : Region :=
  match word with
  | 0x0 => .reg .id
  | 0x1 => .reg .cfg
  | 0x2 => .reg .cmd
  | 0x3 => .reg .status
  | 0x4 => .reg .ctrl
  | 0x5 => .reg .adLen
  | 0x6 => .reg .dLen
  | 0x7 => .reg .nonceLen
  | 0x8 => .reg .nonceSize
  | 0x9 => .reg .overhead
  | 0xA => .reg .adCapR
  | 0xB => .reg .dCapR
  | _ => .reserved

/-- Address decode (rules R41, R45). -/
def regionOf (P : Config.Params) (off : Nat) : Region :=
  if off ≤ 0xFFF then
    if nonceBase ≤ off ∧ off < nonceBase + nonceBytes then .nonce else regAt (off / 4)
  else if adBase ≤ off ∧ off < adBase + P.adCap then .adbuf
  else if dBase ≤ off ∧ off < dBase + P.dCap then .dbuf
  else .unmapped

/-- What a register reads as (rules R19 to R30); CMD and CTRL read 0. -/
def regValue (P : Config.Params) (s : State) : Reg → Word
  | .id => 0x41465801#32
  | .cfg => s.cfg.toWord
  | .cmd => 0#32
  | .status => s.status.toWord
  | .ctrl => 0#32
  | .adLen => s.adLen
  | .dLen => s.dLen
  | .nonceLen => s.nonceLen.setWidth 32
  | .nonceSize => BitVec.ofNat 32 (nonceSize s)
  | .overhead => 16#32
  | .adCapR => BitVec.ofNat 32 P.adCap
  | .dCapR => BitVec.ofNat 32 P.dCap

/-- The number of bytes an access reaches (rule R40). -/
def Size.bytes : Size → Nat
  | .byte => 1
  | .half => 2
  | .word => 4

/-- Where an access starts (rule R40). -/
def Access.offset : Access → Nat
  | .read off _ => off.toNat
  | .write off _ _ => off.toNat

/-- How many bytes an access reaches. -/
def Access.bytes : Access → Nat
  | .read _ size => size.bytes
  | .write _ size _ => size.bytes

/-- Natural alignment: `off mod n = 0` (rule R46). -/
def Access.aligned (a : Access) : Bool := a.offset % a.bytes == 0

/-- The byte a read finds at an offset: `byte(o)` of rule R43. Reserved offsets read zero (rule R18); an unmapped one has
no byte, and its access ends in ERROR with data 0 before this value is used (rule R41). -/
def byteAt (P : Config.Params) (s : State) (off : Nat) : Byte :=
  match regionOf P off with
  | .reg r => byteOf (regValue P s r) (off % 4)
  | .reserved => 0#8
  | .nonce => s.mem.read off
  | .adbuf => s.mem.read off
  | .dbuf => s.mem.read off
  | .unmapped => 0#8

/-- Read data: the sum over k of `byte(off + k) << (8*k)` (rule R43). -/
def readData (P : Config.Params) (s : State) (off : Nat) : Nat → Word
  | 0 => 0#32
  | n + 1 => readData P s off n ||| ((byteAt P s (off + n)).setWidth 32 <<< (8 * n))

/-- The bytes `v[8k+7:8k]` that a write of `n` bytes stores, lowest offset first (rule R43). -/
def writeLanes (v : Word) (n : Nat) : List Byte := (List.range n).map (byteOf v)

/-- The byte lanes of a register that a write of `n` bytes at `off` reaches, as ones (rules R43, R44). -/
def laneMask (off n : Nat) : Word := BitVec.ofNat 32 (2 ^ (8 * n) - 1) <<< (8 * (off % 4))

/-- The written bytes in their lanes, zero in every other lane (rules R43, R44). -/
def laneWord (off n : Nat) (v : Word) : Word := (v <<< (8 * (off % 4))) &&& laneMask off n

/-- A register word with only the written bytes replaced (rule R44). -/
def mergeLanes (old : Word) (off n : Nat) (v : Word) : Word := (old &&& ~~~ laneMask off n) ||| laneWord off n v

end Sys2Proof.Machine
end

