-- ==== Sys2Proof/Machine/Comparator.lean ====
section
/-! DEFINITION. The constant-time tag comparator TCMP (rules R82 to R85). -/

namespace Sys2Proof.Machine

/-- The accumulator after all 16 bytes, by OR, with no early exit (rule R82). -/
def tcmpAcc (e r : Vector Byte 16) : Byte :=
  (List.finRange 16).foldl (fun acc i => acc ||| (e[i] ^^^ r[i])) 0#8

/-- `tcmp(ETAG, R)`: runs the accumulator; the one-bit result is whether it stayed zero (rules R37, R82). -/
def tcmp (r : Vector Byte 16) (s : State) : State × Bool :=
  let a := tcmpAcc s.etag r
  ({ s with acc := a }, a == 0#8)

end Sys2Proof.Machine
end

