-- ==== Sys2Proof/Machine/Framer.lean ====
section
/-! DEFINITION. The framer FRM: the length encoder, the frame, and the sequencer that sends it (rules R76 to R81). -/

namespace Sys2Proof.Machine

/-- `le64(n)`: byte k is `(n >> 8k) & 0xFF` (rule R76). -/
def le64 (n : BitVec 64) : Vector Byte 8 := Vector.ofFn fun k : Fin 8 => (n >>> (8 * k.val)).setWidth 8

/-- `le64(len(s))`: a length widened to 64 bits by zero-extension (rules R58, R76). -/
def lenField (s : List Byte) : List Byte := (le64 (BitVec.ofNat 64 s.length)).toList

/-- `frame(ad, ct)`: the MAC message, associated data first, each segment followed by its length, no padding
(rules R77, R79). -/
def frame (ad ct : List Byte) : List Byte := ad ++ lenField ad ++ ct ++ lenField ct

/-- The states of the sequencer, and idle (rule R81). -/
inductive FrmState where
  | fAd
  | fAdLen
  | fCt
  | fCtLen
  | fEnd
  | idle
  deriving DecidableEq, Repr

/-- The sequencer: its state and the counter i within the segment (rule R81). -/
structure Framer where
  st : FrmState
  i : Nat
  deriving DecidableEq, Repr

/-- Sends the next byte of a segment, or moves to state `next` when the segment is done (rule R81). -/
def frmSegment (seg : List Byte) (next : FrmState) (f : Framer) : List Byte × Framer :=
  if f.i < seg.length then ([seg.getD f.i 0#8], { f with i := f.i + 1 }) else ([], { st := next, i := 0 })

/-- One move of the sequencer: what it sends to the MAC port, and its next state (rule R81). -/
def frmMove (ad ct : List Byte) (f : Framer) : List Byte × Framer :=
  match f.st with
  | .fAd => frmSegment ad .fAdLen f
  | .fAdLen => frmSegment (lenField ad) .fCt f
  | .fCt => frmSegment ct .fCtLen f
  | .fCtLen => frmSegment (lenField ct) .fEnd f
  | .fEnd => ([], { st := .idle, i := 0 })
  | .idle => ([], f)

/-- What the sequencer sends in that many moves. -/
def frmRun (ad ct : List Byte) : Nat → Framer → List Byte × Framer
  | 0, f => ([], f)
  | k + 1, f =>
    let move := frmMove ad ct f
    let rest := frmRun ad ct k move.2
    (move.1 ++ rest.1, rest.2)

/-- The moves from F_AD to idle: one per byte of the frame, one per change of state. -/
def frmMoves (ad ct : List Byte) : Nat := ad.length + ct.length + 16 + 5

/-- The message the MAC port receives from the sequencer, started in F_AD (rules R80, R81, R89). -/
def macMessage (ad ct : List Byte) : List Byte := (frmRun ad ct (frmMoves ad ct) { st := .fAd, i := 0 }).1

end Sys2Proof.Machine
end

