-- ==== Sys2Proof/Machine/Kxu.lean ====
section
/-! DEFINITION. The collaborator ports and the keystream XOR unit KXU: lanes, beats, multiplexer and the three passes
(rules R86 to R97). -/

namespace Sys2Proof.Machine

/-- Both collaborators answer; otherwise a command that needs them does not complete (rule R104; log 9). -/
def collaboratorsAnswer (s : State) : Bool := s.env.ksAnswers && s.env.macAnswers

/-- The MAC port: the tag of a message under OTK (rule R89). -/
def macPort (P : Config.Params) (message : List Byte) (s : State) : State × Vector Byte 16 :=
  (recordCalls [.mac s.otk message] s, P.mac s.otk message)

/-- One pass of the KXU: what is fixed during it. `d` is the data string, `lo` and `hi` bound the active positions
(rule R91). -/
structure Pass where
  key : List Byte
  mode : NonceMode
  nonce : List Byte
  d : List Byte
  lo : Nat
  hi : Nat
  deriving DecidableEq, Repr

/-- What a pass changes: OTK, KSTAGE, the output string, and the requests at the keystream port. -/
structure Kxu where
  otk : Vector Byte 32
  kstage : Vector Byte 64
  out : List Byte
  calls : List PortCall
  deriving DecidableEq, Repr

/-- The lane multiplexer: key lanes, discard lanes, data lanes (rule R92). -/
def laneMux (p : Nat) (k : Byte) (d : List Byte) (u : Kxu) : Kxu :=
  if p < 32 then { u with otk := u.otk.setIfInBounds p (0x00#8 ^^^ k) }
  else if p < 64 then u
  else { u with out := u.out.set (p - 64) (d.getD (p - 64) 0#8 ^^^ k) }

/-- Lane `j` of beat `b`: a masked lane requests no keystream byte and writes nothing (rule R91). -/
def laneStep (P : Config.Params) (r : Pass) (b : Nat) (u : Kxu) (j : Nat) : Kxu :=
  let p := P.lanes * b + j
  if r.lo ≤ p ∧ p < r.hi then
    let k := P.ks r.key r.mode r.nonce p
    laneMux p k r.d
      { u with kstage := u.kstage.setIfInBounds j k, calls := u.calls ++ [.ks r.mode r.nonce p] }
  else u

/-- One beat over the W lanes (rule R91). -/
def beat (P : Config.Params) (r : Pass) (u : Kxu) (b : Nat) : Kxu :=
  (List.range P.lanes).foldl (laneStep P r b) u

/-- The beats of a pass: from `lo / W` to `ceil(hi / W) - 1` (rules R95 to R97). -/
def passBeats (P : Config.Params) (r : Pass) : List Nat :=
  List.range' (r.lo / P.lanes) ((r.hi + P.lanes - 1) / P.lanes - r.lo / P.lanes)

/-- A whole pass. -/
def runPass (P : Config.Params) (r : Pass) (u : Kxu) : Kxu := (passBeats P r).foldl (beat P r) u

/-- A pass over the state's own OTK and KSTAGE, for the key presented while it runs (rules R86, R88); the requests are
recorded, the output string is returned. -/
def kxuPass (P : Config.Params) (mode : NonceMode) (nonce d : List Byte) (lo hi : Nat) (s : State) : State × List Byte :=
  let u := runPass P { key := s.env.key, mode := mode, nonce := nonce, d := d, lo := lo, hi := hi }
    { otk := s.otk, kstage := s.kstage, out := List.replicate d.length 0#8, calls := [] }
  (recordCalls u.calls { s with otk := u.otk, kstage := u.kstage }, u.out)

/-- `kxu_run` of SEAL: one pass over positions 0 to 64 + n - 1 (rule R95). -/
def kxuRun (P : Config.Params) (mode : NonceMode) (nonce pt : List Byte) (s : State) : State × List Byte :=
  kxuPass P mode nonce pt 0 (64 + pt.length) s

/-- `kxu_key` of OPEN: one pass over positions 0 to 63 (rule R96). -/
def kxuKey (P : Config.Params) (mode : NonceMode) (nonce : List Byte) (s : State) : State :=
  (kxuPass P mode nonce [] 0 64 s).1

/-- `kxu_data` of OPEN: one pass over positions 64 to 64 + n - 1 (rule R97). -/
def kxuData (P : Config.Params) (mode : NonceMode) (nonce ct : List Byte) (s : State) : State × List Byte :=
  kxuPass P mode nonce ct 64 (64 + ct.length) s

end Sys2Proof.Machine
end

