-- ==== Sys2Proof/Machine/Commands.lean ====
section
/-! DEFINITION. The meanings of the commands (rules R67 to R74): each is the command's completion, from the state in which
its word is latched. The functions `…Command` take the implementation's parameters; a meaning fixes them to
`Config.params`. -/

namespace Sys2Proof.Machine

/-- NOP (rule R67). -/
def execNop (s : State) : Host.Outcome State Fault Refusal := .next (finish .ok s)

/-- INIT: KEY_BYTES = 32 (rules R6, R68). -/
def initCommand (s : State) : State :=
  if s.keyLenIn ≠ 32#16 then finish .invalidKeySize { s with status := s.status.bound false .short }
  else finish .ok { s with status := s.status.bound true (modeOfExt s.cfg.ext) }

/-- INIT (rule R68). -/
def execInit (s : State) : Host.Outcome State Fault Refusal := .next (initCommand s)

/-- The part of SEAL after its checks: KXU pass, tag, scrub, envelope (rule R69). -/
def sealData (P : Config.Params) (s : State) : State :=
  let n := s.dLen.toNat
  let run := kxuRun P s.status.mode (nonceOperand s) (dataOperand n s) s
  let tag := macPort P (macMessage (adOperand s) run.2) run.1
  let out := writeData n tag.2.toList (writeData 0 run.2 (scrub tag.1))
  finish .ok { out with dLen := BitVec.ofNat 32 (n + tagBytes) }

/-- SEAL: the checks in the order of rule R105; a collaborator that does not answer leaves the command in progress
(rules R66, R69, R104). -/
def sealCommand (P : Config.Params) (s : State) : State :=
  if s.status.instValid = false then finish .notInitialised s
  else if s.nonceLen.toNat ≠ nonceSize s then raiseInvalidNonceSize s
  else if s.adLen.toNat > P.adCap ∨ s.dLen.toNat > P.dCap - tagBytes then finish .lengthError s
  else if collaboratorsAnswer s then sealData P s
  else s

/-- SEAL (rule R69). -/
def execSeal (s : State) : Host.Outcome State Fault Refusal := .next (sealCommand Config.params s)

/-- Steps (2) to (4) of OPEN: key pass, expected tag, comparison, scrub (rule R70). -/
def openVerify (P : Config.Params) (s : State) : State × Bool :=
  let n := s.dLen.toNat - tagBytes
  let keyed := kxuKey P s.status.mode (nonceOperand s) s
  let tag := macPort P (macMessage (adOperand s) (dataOperand n s)) keyed
  let cmp := tcmp (tagOperand n s) { tag.1 with etag := tag.2 }
  (scrub cmp.1, cmp.2)

/-- Step (6) of OPEN, after a match: data pass, scrub, plaintext and zeros to DBUF (rule R70). -/
def openDecrypt (P : Config.Params) (s : State) : State :=
  let n := s.dLen.toNat - tagBytes
  let data := kxuData P s.status.mode (nonceOperand s) (dataOperand n s) s
  let out := writeData n (List.replicate tagBytes 0#8) (writeData 0 data.2 (scrub data.1))
  finish .ok { out with dLen := BitVec.ofNat 32 n }

/-- The part of OPEN after its checks: nothing is written unless the tags match (rules R70, R72). -/
def openData (P : Config.Params) (s : State) : State :=
  let verified := openVerify P s
  if verified.2 then openDecrypt P verified.1 else finish .authFailed verified.1

/-- OPEN: the checks in the order of rule R105, short input before any collaborator call (rules R66, R70, R71, R104). -/
def openCommand (P : Config.Params) (s : State) : State :=
  if s.status.instValid = false then finish .notInitialised s
  else if s.nonceLen.toNat ≠ nonceSize s then raiseInvalidNonceSize s
  else if s.adLen.toNat > P.adCap ∨ s.dLen.toNat > P.dCap then finish .lengthError s
  else if s.dLen.toNat < tagBytes then finish .authFailed s
  else if collaboratorsAnswer s then openData P s
  else s

/-- OPEN (rule R70). -/
def execOpen (s : State) : Host.Outcome State Fault Refusal := .next (openCommand Config.params s)

/-- ZEROIZE (rule R73). -/
def zeroizeCommand (P : Config.Params) (s : State) : State :=
  finish .ok
    { s with
      mem := ((s.mem.clear adBase P.adCap).clear dBase P.dCap).clear nonceBase nonceBytes
      adLen := 0#32
      dLen := 0#32
      nonceLen := 0#8 }

/-- ZEROIZE (rule R73). -/
def execZeroize (s : State) : Host.Outcome State Fault Refusal := .next (zeroizeCommand Config.params s)

/-- An illegal word; its fields select nothing (rules R59, R74). -/
def execIllegal (_rsvd : BitVec 28) (_opc : BitVec 4) (s : State) : Host.Outcome State Fault Refusal :=
  .next (finish .illegalCommand s)

end Sys2Proof.Machine
end

