-- ==== Sys2Proof/Machine/Dispatch.lean ====
section
/-! DEFINITION. One arm per constructor of Instr: its meaning. -/

namespace Sys2Proof.Machine

def exec (i : Instr) (s : State) : Host.Outcome State Fault Refusal :=
  match i with
  | .nop => Sys2Proof.Machine.execNop s
  | .init => Sys2Proof.Machine.execInit s
  | .sealCmd => Sys2Proof.Machine.execSeal s
  | .openCmd => Sys2Proof.Machine.execOpen s
  | .zeroize => Sys2Proof.Machine.execZeroize s
  | .illegal rsvd opc => Sys2Proof.Machine.execIllegal rsvd opc s

end Sys2Proof.Machine
end

