-- ==== Sys2Proof/Machine/Bus.lean ====
section
/-! DEFINITION. Host bus accesses: the busy hold, reads and writes with their side effects, and responses
(rules R18 to R33, R40 to R47, R117). -/

namespace Sys2Proof.Machine

/-- The locations held while BUSY (rules R18, R117). -/
def heldRegion : Region → Bool
  | .reg .cfg => true
  | .reg .adLen => true
  | .reg .dLen => true
  | .reg .nonceLen => true
  | .reg .nonceSize => true
  | .nonce => true
  | .adbuf => true
  | .dbuf => true
  | .reg .id => false
  | .reg .cmd => false
  | .reg .status => false
  | .reg .ctrl => false
  | .reg .overhead => false
  | .reg .adCapR => false
  | .reg .dCapR => false
  | .reserved => false
  | .unmapped => false

/-- Whether an access is held now: BUSY, and it goes to a held location, which is that of its offset (rules R41, R117). A
misaligned access is held like any other, and gets its ERROR once BUSY is 0 (rule R46; log 6). -/
def heldNow (P : Config.Params) (s : State) (a : Access) : Bool :=
  s.status.busy && heldRegion (regionOf P a.offset)

/-- A write of `n` bytes of `v` at offset `off` of a register (rules R18 to R30, R44). -/
def writeReg (r : Reg) (off n : Nat) (v : Word) (s : State) : State :=
  match r with
  | .cfg => { s with cfg := Cfg.ofWord (mergeLanes s.cfg.toWord off n v) }
  | .cmd => if n = 4 then cmdWrite v s else s
  | .status => { s with status := s.status.cleared (laneWord off n v) }
  | .ctrl => if (laneWord off n v).getLsbD 0 then resetBlock s else s
  | .adLen => { s with adLen := mergeLanes s.adLen off n v }
  | .dLen => { s with dLen := mergeLanes s.dLen off n v }
  | .nonceLen => { s with nonceLen := (mergeLanes (s.nonceLen.setWidth 32) off n v).setWidth 8 }
  | .id => s
  | .nonceSize => s
  | .overhead => s
  | .adCapR => s
  | .dCapR => s

/-- What an aligned write does (rules R41, R43, R47). -/
def writeAt (P : Config.Params) (off n : Nat) (v : Word) (s : State) : State :=
  match regionOf P off with
  | .reg r => writeReg r off n v s
  | .reserved => s
  | .nonce => { s with mem := s.mem.writeBytes off (writeLanes v n) }
  | .adbuf => { s with mem := s.mem.writeBytes off (writeLanes v n) }
  | .dbuf => { s with mem := s.mem.writeBytes off (writeLanes v n) }
  | .unmapped => s

/-- The ERROR response, read data 0 (rule R40). -/
def errorResponse : Response := { okay := false, data := 0#32 }

/-- Whether an access gets the ERROR response: misaligned or unmapped (rules R41, R46). -/
def Access.erroneous (P : Config.Params) (a : Access) : Bool := !a.aligned || regionOf P a.offset == .unmapped

/-- Performs an access that is not held, and returns its response (rules R40 to R49). -/
def perform (P : Config.Params) (a : Access) (s : State) : State :=
  if a.erroneous P then respond errorResponse s
  else
    match a with
    | .read off size => respond { okay := true, data := readData P s off.toNat size.bytes } s
    | .write off size v => respond { okay := true, data := 0#32 } (writeAt P off.toNat size.bytes v s)

end Sys2Proof.Machine
end

