-- ==== Sys2Proof/Machine/Turn.lean ====
section
/-! DEFINITION. Who moves next, and every move but the engine's: the schedule, the bus port and the environment's inputs
(rules R47, R49, R64, R88, R104, R113, R117; log 4). -/

namespace Sys2Proof.Machine

/-- What a step is. -/
inductive Turn where
  /-- The command in progress completes, from this state. -/
  | engine (s : State)
  /-- Something else moved, and this is the next state. -/
  | moved (s : State)
  deriving DecidableEq, Repr

/-- The state once its first event is taken. -/
def popEvent (rest : List Event) (s : State) : State := { s with env := { s.env with sched := rest } }

/-- The engine's turn: it runs while BUSY, and is idle otherwise (rules R64, R111). -/
def engineTurn (s : State) : Turn := if s.status.busy then .engine s else .moved s

/-- The port's turn: a waiting access completes once it is not held, against the state it then finds; while it is held the
engine runs (rules R47, R117). -/
def portTurn (P : Config.Params) (a : Access) (s : State) : Turn :=
  if heldNow P s a then engineTurn s else .moved (perform P a { s with env := { s.env with port := none } })

/-- The host presents an access: performed at once, or left waiting at the port if held (rules R49, R117). -/
def issue (P : Config.Params) (a : Access) (s : State) : State :=
  if heldNow P s a then { s with env := { s.env with port := some a } } else perform P a s

/-- The turn in a state. The host's next access waits for the one at the port: the one
port is served in the host's order, which is all the ordering there is (rules R49, R51); everything else happens when the
schedule says; with nothing scheduled, the waiting access and the engine go on (log 4). -/
def turn (P : Config.Params) (s : State) : Turn :=
  match s.env.sched with
  | .host a :: rest =>
    match s.env.port with
    | some w => portTurn P w s
    | none => .moved (issue P a (popEvent rest s))
  | .engine :: rest => engineTurn (popEvent rest s)
  | .hardReset :: rest => .moved (resetBlock (popEvent rest s))
  | .presentKey k :: rest => .moved { s with env := { s.env with sched := rest, key := k } }
  | .ksAnswers b :: rest => .moved { s with env := { s.env with sched := rest, ksAnswers := b } }
  | .macAnswers b :: rest => .moved { s with env := { s.env with sched := rest, macAnswers := b } }
  | [] =>
    match s.env.port with
    | some w => portTurn P w s
    | none => engineTurn s

/-- The command the engine runs: the decoded latch (rule R65). -/
def latched (s : State) : Instr := decodeWord s.pendOpc

/-- The state in which this command word has just been accepted and the engine moves next (rule R63; log 12). -/
def placeWord (w : Word) (s : State) : State :=
  let t := accept w s
  { t with env := { t.env with sched := .engine :: t.env.sched } }

end Sys2Proof.Machine
end

