-- ==== Sys2Proof/Machine/Step.lean ====
section
/-! DEFINITION. One step of the machine. -/

namespace Sys2Proof.Machine

/-- One step: the engine completes the command it has latched, or something else moves. -/
def step (s : State) : Host.Outcome State Fault Refusal :=
  match turn Config.params s with
  | .engine t => exec (latched t) t
  | .moved t => .next t

/-- `s` with this command word latched, as acceptance latches it, and the engine moving next (log 12). -/
def State.withFetchWord (s : State) (nbits w : Nat) : State := placeWord (tableWord nbits w) s

end Sys2Proof.Machine
end

