-- ==== Sys2Proof/Safety.lean ====
section
/-! DEFINITION. The terms claims use: what a command computes from the state it starts in, when it runs, what a step does
at the bus, and the invariant of the machine. -/

namespace Sys2Proof.Machine

/-- `KS(mode, nonce, p)` as a SEAL or OPEN in this state asks for it (rule R86). -/
def ksByte (s : State) (p : Nat) : Byte := Config.params.ks s.env.key s.status.mode (nonceOperand s) p

/-- The one-time MAC key of a SEAL or OPEN in this state: keystream bytes 0 to 31 (rules R34, R92). -/
def oneTimeKey (s : State) : Vector Byte 32 := Vector.ofFn fun p : Fin 32 => ksByte s p.val

/-- A data string XORed with the keystream from position 64 on (rules R95, R97). -/
def xorData (s : State) (d : List Byte) : List Byte :=
  (List.range d.length).map fun i => d.getD i 0#8 ^^^ ksByte s (64 + i)

/-- The ciphertext a SEAL in this state produces (rule R69). -/
def sealCiphertext (s : State) : List Byte := xorData s (dataOperand s.dLen.toNat s)

/-- The tag a SEAL in this state produces (rule R69). -/
def sealTag (s : State) : Vector Byte 16 :=
  Config.params.mac (oneTimeKey s) (frame (adOperand s) (sealCiphertext s))

/-- The ciphertext part of the envelope an OPEN in this state reads (rule R70). -/
def openCiphertext (s : State) : List Byte := dataOperand (s.dLen.toNat - tagBytes) s

/-- The tag an OPEN in this state expects (rule R70). -/
def openTag (s : State) : Vector Byte 16 :=
  Config.params.mac (oneTimeKey s) (frame (adOperand s) (openCiphertext s))

/-- The tag an OPEN in this state received (rules R70, R84). -/
def receivedTag (s : State) : Vector Byte 16 := tagOperand (s.dLen.toNat - tagBytes) s

/-- The keystream requests for positions `lo` to `lo + len - 1` in this state, in order. -/
def ksCalls (s : State) (lo len : Nat) : List PortCall :=
  (List.range' lo len).map fun p => .ks s.status.mode (nonceOperand s) p

/-- The calls of a SEAL (rules R55, R69, R89). -/
def sealCalls (s : State) : List PortCall :=
  ksCalls s 0 (64 + s.dLen.toNat) ++ [.mac (oneTimeKey s) (frame (adOperand s) (sealCiphertext s))]

/-- The calls of an OPEN up to its verdict (rules R55, R70, R89). -/
def verifyCalls (s : State) : List PortCall :=
  ksCalls s 0 64 ++ [.mac (oneTimeKey s) (frame (adOperand s) (openCiphertext s))]

/-- The calls of an OPEN after a match. -/
def decryptCalls (s : State) : List PortCall := ksCalls s 64 (s.dLen.toNat - tagBytes)

/-- The word of this command is latched. -/
def Latched (i : Instr) (s : State) : Prop := s.pendOpc = encode i

/-- The checks SEAL and OPEN share before the lengths: an instance, and the nonce length of its mode (rules R66, R105). -/
def NonceReady (s : State) : Prop := s.status.instValid = true ∧ s.nonceLen.toNat = nonceSize s

/-- A SEAL passes every check, and its collaborators answer (rules R69, R104). -/
def SealReady (s : State) : Prop :=
  NonceReady s ∧ s.adLen.toNat ≤ Config.params.adCap ∧ s.dLen.toNat ≤ Config.params.dCap - 16 ∧
    collaboratorsAnswer s = true

/-- An OPEN passes every check, and its collaborators answer (rules R70, R71, R104). -/
def OpenReady (s : State) : Prop :=
  NonceReady s ∧ s.adLen.toNat ≤ Config.params.adCap ∧ s.dLen.toNat ≤ Config.params.dCap ∧ 16 ≤ s.dLen.toNat ∧
    collaboratorsAnswer s = true

/-- A state after `finish(code)` with this AUTH_OK: the result fields of STATUS, and the latch cleared (rule R64). -/
def completed (code : ErrCode) (authOk : Bool) (s : State) : State :=
  { s with
    status := { s.status with errcode := code, authOk := authOk, busy := false, done := true }
    pendOpc := 0#32 }

/-- The four secret registers are zero (rules R14, R99). -/
def Scrubbed (s : State) : Prop :=
  s.otk = Vector.replicate 32 0#8 ∧ s.etag = Vector.replicate 16 0#8 ∧ s.kstage = Vector.replicate 64 0#8 ∧ s.acc = 0#8

/-- The same state with other contents in the four secret registers. -/
def withSecrets (otk : Vector Byte 32) (etag : Vector Byte 16) (kstage : Vector Byte 64) (acc : Byte) (s : State) : State :=
  { s with otk := otk, etag := etag, kstage := kstage, acc := acc }

/-- A call at the MAC port. -/
def isMacCall : PortCall → Bool
  | .ks _ _ _ => false
  | .mac _ _ => true

/-- The state after the fault entry (rule R101). -/
def faultEntered (s : State) : State :=
  { s with
    status :=
      { s.status with fault := true, errcode := .invalidNonceSize, authOk := false, busy := false, done := true }
    pendOpc := 0#32 }

/-- The OKAY response with this read data (rule R40). -/
def okay (data : Word) : Response := { okay := true, data := data }

/-- The offset is a byte of NONCE, ADBUF or DBUF (rule R45). -/
def InBuffer (P : Config.Params) (off : Nat) : Prop :=
  (nonceBase ≤ off ∧ off < nonceBase + nonceBytes) ∨ (adBase ≤ off ∧ off < adBase + P.adCap) ∨
    (dBase ≤ off ∧ off < dBase + P.dCap)

/-- The bus access a step in this state performs, if it performs one. -/
def served (s : State) : Option Access :=
  match s.env.sched with
  | .host a :: _ =>
    match s.env.port with
    | some w => if heldNow Config.params s w then none else some w
    | none => if heldNow Config.params s a then none else some a
  | [] =>
    match s.env.port with
    | some w => if heldNow Config.params s w then none else some w
    | none => none
  | _ :: _ => none

/-- An access that triggers the soft reset: a write reaching byte 0 of CTRL with bit 0 = 1 (rules R24, R44). -/
def isSoftReset : Access → Bool
  | .read _ _ => false
  | .write off _ v => off.toNat == 0x010 && v.getLsbD 0

/-- A step in this state resets the block (rules R113, R114). -/
def resetsNow (s : State) : Bool := s.env.sched.head? == some .hardReset || (served s).any isSoftReset

/-- A step in this state is the engine's: it completes the command in progress. -/
def engineMoves (s : State) : Prop := ∃ t, turn Config.params s = .engine t

/-- The invariant of the machine, over every interleaving of host, engine, key store and resets. -/
structure Invariant (s : State) : Prop where
  /-- Memory keeps its canonical form. -/
  memCanonical : s.mem.wf
  /-- Nothing is stored outside the three buffers (rules R13, R41). -/
  memInBuffers : ∀ c ∈ s.mem, InBuffer Config.params c.1
  /-- The secret registers are zero between steps (rules R14, R99). -/
  scrubbed : Scrubbed s
  /-- With no instance, MODE is 0 (rule R23). -/
  noInstanceShort : s.status.instValid = false → s.status.mode = .short
  /-- FAULT locks the block idle, with ERRCODE 2 and an instance bound (rule R101). -/
  faultLocked : s.status.fault = true →
    s.status.busy = false ∧ s.status.errcode = .invalidNonceSize ∧ s.status.instValid = true
  /-- PEND_OPC is zero while no command is in progress (rules R38, R64). -/
  idleLatch : s.status.busy = false → s.pendOpc = 0#32
  /-- A command in progress is not done (rules R63, R64). -/
  busyNotDone : s.status.busy = true → s.status.done = false
  /-- AUTH_OK is only ever 1 beside OK, with an instance bound (rules R22, R64). -/
  authOkMeans : s.status.authOk = true → s.status.errcode = .ok ∧ s.status.instValid = true
  /-- Only an access to a held location waits at the port (rule R117). -/
  portHeld : ∀ a, s.env.port = some a → heldRegion (regionOf Config.params a.offset) = true

/-- A safe run: the machine goes on, whatever the environment does. -/
def SafeStep (s : State) : Prop := ∃ t, step s = .next t

end Sys2Proof.Machine
end

