-- ==== Sys2Proof/Certificates/Slice0/Obligations.lean ====
section
/-! DEFINITION. The statements for the provers, each from the spec's rules. `completed`, `SealReady`, `ksByte` and the other
terms are in Safety.lean. -/

open Sys2Proof Sys2Proof.Machine

/-! ### Encoding -/

/-- Rules R51, R57, R59, R60, R65: exactly the words 0 to 4 are commands, so there is no fence, barrier or hint; a word is illegal exactly if it is 5 or more. -/
def Obligations.OnlyFiveWordsAreCommands : Prop :=
  ∀ w : Word,
    (decodeWord w = .nop ↔ w = 0#32) ∧ (decodeWord w = .init ↔ w = 1#32) ∧ (decodeWord w = .sealCmd ↔ w = 2#32) ∧
    (decodeWord w = .openCmd ↔ w = 3#32) ∧ (decodeWord w = .zeroize ↔ w = 4#32) ∧
    ((∃ rsvd opc, decodeWord w = .illegal rsvd opc) ↔ 5 ≤ w.toNat)

/-- Rule R65, line by line. -/
def Obligations.LatchedWordIsDecodedByFields : Prop :=
  ∀ w : Word,
    (w.extractLsb' 4 28 ≠ 0#28 → decodeWord w = .illegal (w.extractLsb' 4 28) (w.extractLsb' 0 4)) ∧
    (w.extractLsb' 4 28 = 0#28 →
      (w.extractLsb' 0 4 = 0x0#4 → decodeWord w = .nop) ∧ (w.extractLsb' 0 4 = 0x1#4 → decodeWord w = .init) ∧
      (w.extractLsb' 0 4 = 0x2#4 → decodeWord w = .sealCmd) ∧ (w.extractLsb' 0 4 = 0x3#4 → decodeWord w = .openCmd) ∧
      (w.extractLsb' 0 4 = 0x4#4 → decodeWord w = .zeroize) ∧
      (5 ≤ (w.extractLsb' 0 4).toNat → decodeWord w = .illegal 0#28 (w.extractLsb' 0 4)))

/-- Rules R43, R56, R57: decoding the encoding of a well-formed command gives it back, as a word and as the bytes that hold
it, whatever follows them. -/
def Obligations.DecodingTheEncodingGivesTheCommand : Prop :=
  ∀ (i : Instr) (rest : List Byte), i.wf = true →
    decodeWord (encode i) = i ∧ decode (wordBytes (encode i) ++ rest) = .ok (i, rest)

/-- Rules R57, R59: every word decodes to a well-formed command whose encoding is that word. -/
def Obligations.EncodingTheDecodedWordGivesTheWord : Prop :=
  ∀ w : Word, (decodeWord w).wf = true ∧ encode (decodeWord w) = w

/-- Rules R57, R74: a few words of the opcode table, and the illegal word of rule R74's example. -/
def Obligations.TableWordsDecode : Prop :=
  decodeTableWord 32 0x00000000 = some .nop ∧ decodeTableWord 32 0x00000001 = some .init ∧
  decodeTableWord 32 0x00000002 = some .sealCmd ∧ decodeTableWord 32 0x00000003 = some .openCmd ∧
  decodeTableWord 32 0x00000004 = some .zeroize ∧ decodeTableWord 32 0x00000012 = some (.illegal 1#28 2#4)

/-! ### The step -/

/-- Rules R64, R65, R117: while a command is in progress and it is the engine's turn (the schedule says so, or nothing
else can move), the step is exec of the latched command. The schedule is the model's own (log 4). -/
def Obligations.StepRunsTheLatchedCommand : Prop :=
  ∀ (s : State) (i : Instr), s.status.busy = true → decodeWord s.pendOpc = i →
    (∀ rest, s.env.sched = .engine :: rest → step s = exec i { s with env := { s.env with sched := rest } }) ∧
    (s.env.sched = [] → s.env.port = none → step s = exec i s) ∧
    (∀ w, s.env.port = some w → heldNow Config.params s w = true →
      (s.env.sched = [] ∨ ∃ a rest, s.env.sched = .host a :: rest) → step s = exec i s)

/-! ### The commands -/

/-- Rule R67. -/
def Obligations.NopCompletesOk : Prop :=
  ∀ s : State, Latched .nop s → exec .nop s = .next (completed .ok false s)

/-- Rules R50, R58, R68: INIT binds an instance if the key presented at acceptance has 32 bytes, else drops it. The sampling
at acceptance is log 7. -/
def Obligations.InitBindsOrDropsTheInstance : Prop :=
  (∀ (s : State) (w : Word), (accept w s).keyLenIn = 32#16 ↔ s.env.key.length = 32) ∧
  ∀ s : State, Latched .init s →
    (s.keyLenIn = 32#16 →
      exec .init s = .next (completed .ok false
        { s with status := { s.status with instValid := true, mode := if s.cfg.ext then .extended else .short } })) ∧
    (s.keyLenIn ≠ 32#16 →
      exec .init s = .next (completed .invalidKeySize false
        { s with status := { s.status with instValid := false, mode := .short } }))

/-- Rules R69, R92, R95, R77, R99: a SEAL that passes its checks leaves ciphertext and tag in DBUF and nothing else but
D_LEN, the result fields, the scrubbed registers and its port calls changed. -/
def Obligations.SealProducesTheEnvelope : Prop :=
  ∀ s : State, Latched .sealCmd s → SealReady s →
    ∃ m : Memory,
      exec .sealCmd s = .next (completed .ok false
        { s with
          mem := m, dLen := BitVec.ofNat 32 (s.dLen.toNat + 16)
          otk := Vector.replicate 32 0#8, etag := Vector.replicate 16 0#8, kstage := Vector.replicate 64 0#8, acc := 0#8
          env := { s.env with calls := s.env.calls ++ sealCalls s } }) ∧
      (BitVec.ofNat 32 (s.dLen.toNat + 16)).toNat = s.dLen.toNat + 16 ∧
      (∀ i < s.dLen.toNat, m.read (dBase + i) = s.mem.read (dBase + i) ^^^ ksByte s (64 + i)) ∧
      (∀ k : Fin 16, m.read (dBase + s.dLen.toNat + k.val) = (sealTag s)[k]) ∧
      (∀ a, a < dBase ∨ dBase + s.dLen.toNat + 16 ≤ a → m.read a = s.mem.read a)

/-- Rules R66, R69, R70, R101, R105: the errors SEAL and OPEN share, in the order checked, and what each leaves. -/
def Obligations.SealAndOpenErrorsInTheirOrder : Prop :=
  ∀ (i : Instr) (s : State), i = .sealCmd ∨ i = .openCmd → Latched i s →
    (s.status.instValid = false → exec i s = .next (completed .notInitialised false s)) ∧
    (s.status.instValid = true → s.nonceLen.toNat ≠ nonceSize s → exec i s = .next (faultEntered s)) ∧
    (NonceReady s → s.adLen.toNat > Config.params.adCap → exec i s = .next (completed .lengthError false s)) ∧
    (NonceReady s → i = .sealCmd → s.dLen.toNat + 16 > Config.params.dCap →
      exec i s = .next (completed .lengthError false s)) ∧
    (NonceReady s → i = .openCmd → s.dLen.toNat > Config.params.dCap →
      exec i s = .next (completed .lengthError false s))

/-- Rules R70, R97, R99: an OPEN whose tag matches leaves the plaintext in DBUF and zeros where the tag was. -/
def Obligations.OpenRecoversThePlaintext : Prop :=
  ∀ s : State, Latched .openCmd s → OpenReady s → openTag s = receivedTag s →
    ∃ m : Memory,
      exec .openCmd s = .next (completed .ok true
        { s with
          mem := m, dLen := BitVec.ofNat 32 (s.dLen.toNat - 16)
          otk := Vector.replicate 32 0#8, etag := Vector.replicate 16 0#8, kstage := Vector.replicate 64 0#8, acc := 0#8
          env := { s.env with calls := s.env.calls ++ verifyCalls s ++ decryptCalls s } }) ∧
      (∀ i < s.dLen.toNat - 16, m.read (dBase + i) = s.mem.read (dBase + i) ^^^ ksByte s (64 + i)) ∧
      (∀ i, s.dLen.toNat - 16 ≤ i → i < s.dLen.toNat → m.read (dBase + i) = 0#8) ∧
      (∀ a, a < dBase ∨ dBase + s.dLen.toNat ≤ a → m.read a = s.mem.read a)

/-- Rules R70, R72, R99, R120: an OPEN whose tag differs ends AUTH_FAILED: no buffer and no length changed, no keystream
beyond position 63 asked for. -/
def Obligations.OpenRejectsADifferentTag : Prop :=
  ∀ s : State, Latched .openCmd s → OpenReady s → openTag s ≠ receivedTag s →
    exec .openCmd s = .next (completed .authFailed false
      { s with
        otk := Vector.replicate 32 0#8, etag := Vector.replicate 16 0#8, kstage := Vector.replicate 64 0#8, acc := 0#8
        env := { s.env with calls := s.env.calls ++ verifyCalls s } })

/-- Rule R71: a short envelope ends AUTH_FAILED, with no collaborator call and no buffer written, whether or not the
collaborators answer. -/
def Obligations.ShortOpenFailsAuthentication : Prop :=
  ∀ s : State, Latched .openCmd s → NonceReady s → s.adLen.toNat ≤ Config.params.adCap → s.dLen.toNat < 16 →
    exec .openCmd s = .next (completed .authFailed false s)

/-- Rule R73. -/
def Obligations.ZeroizeClearsTheBuffers : Prop :=
  ∀ s : State, Latched .zeroize s →
    ∃ m : Memory,
      exec .zeroize s = .next (completed .ok false { s with mem := m, adLen := 0#32, dLen := 0#32, nonceLen := 0#8 }) ∧
      (∀ i < Config.params.adCap, m.read (0x100000 + i) = 0#8) ∧
      (∀ i < Config.params.dCap, m.read (0x400000 + i) = 0#8) ∧ (∀ i < 24, m.read (0x100 + i) = 0#8) ∧
      (∀ a, ¬ InBuffer Config.params a → m.read a = s.mem.read a)

/-- Rule R74. -/
def Obligations.IllegalWordCompletesWithItsError : Prop :=
  ∀ (s : State) (rsvd : BitVec 28) (opc : BitVec 4), (Instr.illegal rsvd opc).wf = true →
    Latched (.illegal rsvd opc) s → exec (.illegal rsvd opc) s = .next (completed .illegalCommand false s)

/-- Rule R104: a SEAL or OPEN that needs a collaborator which does not answer stays in progress, nothing changed. That it
waits as a whole is the model's choice (log 9). -/
def Obligations.CommandsWaitForTheirCollaborators : Prop :=
  ∀ s : State, NonceReady s → s.adLen.toNat ≤ Config.params.adCap →
    (s.env.ksAnswers = false ∨ s.env.macAnswers = false) →
    (s.dLen.toNat + 16 ≤ Config.params.dCap → exec .sealCmd s = .next s) ∧
    (16 ≤ s.dLen.toNat → s.dLen.toNat ≤ Config.params.dCap → exec .openCmd s = .next s)

/-- Rule R98, with rules R69 and R70: an OPEN accepted right after a SEAL gives the plaintext back. -/
def Obligations.OpenAfterSealGivesThePlaintextBack : Prop :=
  ∀ s : State, Latched .sealCmd s → SealReady s →
    ∃ t u : State,
      exec .sealCmd s = .next t ∧ exec .openCmd (accept (encode .openCmd) t) = .next u ∧
      u.status.errcode = .ok ∧ u.status.authOk = true ∧ u.dLen = s.dLen ∧
      (∀ i < s.dLen.toNat, u.mem.read (dBase + i) = s.mem.read (dBase + i)) ∧
      (∀ i < 16, u.mem.read (dBase + s.dLen.toNat + i) = 0#8)

/-- Rule R105: the outcome of a CMD write and of the command it starts, by the first condition that holds. -/
def Obligations.TheFirstConditionDecides : Prop :=
  (∀ (s : State) (w : Word), s.status.fault = true → cmdWrite w s = s) ∧
  (∀ (s : State) (w : Word), s.status.fault = false → s.status.busy = true →
    cmdWrite w s = { s with status := { s.status with bovr := true } }) ∧
  (∀ (s : State) (w : Word), s.status.fault = false → s.status.busy = false → (cmdWrite w s).status.busy = true) ∧
  (∀ s t : State, collaboratorsAnswer s = true → exec (decodeWord s.pendOpc) s = .next t →
    t.status.errcode =
      (if 5 ≤ s.pendOpc.toNat then .illegalCommand
       else if s.pendOpc = 2#32 ∨ s.pendOpc = 3#32 then
         if s.status.instValid = false then .notInitialised
         else if s.nonceLen.toNat ≠ nonceSize s then .invalidNonceSize
         else if s.adLen.toNat > Config.params.adCap then .lengthError
         else if s.pendOpc = 2#32 ∧ s.dLen.toNat > Config.params.dCap - 16 then .lengthError
         else if s.pendOpc = 3#32 ∧ s.dLen.toNat > Config.params.dCap then .lengthError
         else if s.pendOpc = 3#32 ∧ s.dLen.toNat < 16 then .authFailed
         else if s.pendOpc = 3#32 ∧ openTag s ≠ receivedTag s then .authFailed
         else .ok
       else if s.pendOpc = 1#32 ∧ s.keyLenIn ≠ 32#16 then .invalidKeySize
       else .ok)) ∧
  (∀ (s : State) (rest : List Event), s.env.sched = .hardReset :: rest →
    step s = .next { State.reset with env := { s.env with sched := rest } }) ∧
  (∀ (s : State) (v : Word), v.getLsbD 0 = true →
    perform Config.params (.write 0x010#23 .word v) s = respond (okay 0#32) { State.reset with env := s.env })

/-- Rules R31, R32, R20, R25, R27: no command but ZEROIZE changes NONCE, ADBUF, AD_LEN or NONCE_LEN; none changes CFG; only
SEAL and OPEN change DBUF besides. -/
def Obligations.CommandsLeaveTheirInputs : Prop :=
  ∀ (i : Instr) (s t : State), exec i s = .next t →
    t.cfg = s.cfg ∧ t.keyLenIn = s.keyLenIn ∧
    (i ≠ .zeroize → t.adLen = s.adLen ∧ t.nonceLen = s.nonceLen ∧ ∀ a < dBase, t.mem.read a = s.mem.read a) ∧
    (i ≠ .zeroize → i ≠ .sealCmd → i ≠ .openCmd → t.mem = s.mem ∧ t.dLen = s.dLen)

/-! ### Framer, comparator, keystream XOR unit -/

/-- Rule R76. -/
def Obligations.LengthEncoderIsLittleEndian : Prop :=
  (∀ (n : BitVec 64) (k : Fin 8), (le64 n)[k] = ((n >>> (8 * k.val)) &&& 0xFF#64).setWidth 8) ∧
  (∀ n : BitVec 64, (List.finRange 8).foldr (fun k acc => (le64 n)[k].toNat + 256 * acc) 0 = n.toNat) ∧
  (∀ (v : Word) (k : Fin 8), 4 ≤ k.val → (le64 (v.setWidth 64))[k] = 0#8)

/-- Rules R77, R81, R89: what the sequencer sends to the MAC port, from F_AD until it is idle again, is the frame. -/
def Obligations.SequencerSendsTheFrame : Prop :=
  ∀ ad ct : List Byte,
    frmRun ad ct (frmMoves ad ct) { st := .fAd, i := 0 } = (ad ++ lenField ad ++ ct ++ lenField ct, { st := .idle, i := 0 })

/-- Rule R78: the bytes the sequencer sends, by position, and how many. -/
def Obligations.FrameByteByByte : Prop :=
  ∀ ad ct : List Byte,
    (macMessage ad ct).length = ad.length + ct.length + 16 ∧
    (∀ i < ad.length, (macMessage ad ct).getD i 0#8 = ad.getD i 0#8) ∧
    (∀ k : Fin 8, (macMessage ad ct).getD (ad.length + k.val) 0#8 = (le64 (BitVec.ofNat 64 ad.length))[k]) ∧
    (∀ i < ct.length, (macMessage ad ct).getD (ad.length + 8 + i) 0#8 = ct.getD i 0#8) ∧
    (∀ k : Fin 8,
      (macMessage ad ct).getD (ad.length + 8 + ct.length + k.val) 0#8 = (le64 (BitVec.ofNat 64 ct.length))[k])

/-- Rule R82: the comparator answers true exactly for equal tags; the accumulator is the OR of all differences, and nothing
else is written. -/
def Obligations.ComparatorIsExact : Prop :=
  ∀ (r : Vector Byte 16) (s : State),
    ((tcmp r s).2 = true ↔ s.etag = r) ∧ (tcmp r s).1 = { s with acc := (tcmp r s).1.acc } ∧
    (∀ b < 8, (tcmp r s).1.acc.getLsbD b = true ↔ ∃ k : Fin 16, (s.etag[k] ^^^ r[k]).getLsbD b = true)

/-- Rule R92. -/
def Obligations.MultiplexerRoutesByPosition : Prop :=
  ∀ (p : Nat) (k : Byte) (d : List Byte) (u : Kxu),
    (p < 32 → laneMux p k d u = { u with otk := (laneMux p k d u).otk } ∧
      ∀ i : Fin 32, (laneMux p k d u).otk[i] = if i.val = p then k else u.otk[i]) ∧
    (32 ≤ p → p < 64 → laneMux p k d u = u) ∧
    (64 ≤ p → p - 64 < u.out.length → laneMux p k d u = { u with out := (laneMux p k d u).out } ∧
      (laneMux p k d u).out.length = u.out.length ∧
      ∀ i < u.out.length,
        (laneMux p k d u).out.getD i 0#8 = if i = p - 64 then d.getD (p - 64) 0#8 ^^^ k else u.out.getD i 0#8)

/-- Rules R91, R95: one pass over positions 0 to 64 + n - 1, for every legal lane count. -/
def Obligations.KxuRunResult : Prop :=
  ∀ (P : Config.Params) (mode : NonceMode) (nonce pt : List Byte) (s : State), P.Legal →
    ∃ ks : Vector Byte 64,
      kxuRun P mode nonce pt s =
        ({ s with
            otk := Vector.ofFn fun p : Fin 32 => P.ks s.env.key mode nonce p.val
            kstage := ks
            env :=
              { s.env with
                calls := s.env.calls ++ (List.range' 0 (64 + pt.length)).map fun p => .ks mode nonce p } },
          (List.range pt.length).map fun i => pt.getD i 0#8 ^^^ P.ks s.env.key mode nonce (64 + i))

/-- Rule R96: OPEN's pass over positions 0 to 63, no data lane active. -/
def Obligations.KxuKeyResult : Prop :=
  ∀ (P : Config.Params) (mode : NonceMode) (nonce : List Byte) (s : State), P.Legal →
    ∃ ks : Vector Byte 64,
      kxuKey P mode nonce s =
        { s with
          otk := Vector.ofFn fun p : Fin 32 => P.ks s.env.key mode nonce p.val
          kstage := ks
          env := { s.env with calls := s.env.calls ++ (List.range' 0 64).map fun p => .ks mode nonce p } }

/-- Rule R97: OPEN's pass over positions 64 to 64 + n - 1, which leaves OTK alone and, for n = 0, does nothing. -/
def Obligations.KxuDataResult : Prop :=
  ∀ (P : Config.Params) (mode : NonceMode) (nonce ct : List Byte) (s : State), P.Legal →
    (∃ ks : Vector Byte 64,
      kxuData P mode nonce ct s =
        ({ s with
            kstage := ks
            env :=
              { s.env with
                calls := s.env.calls ++ (List.range' 64 ct.length).map fun p => .ks mode nonce p } },
          (List.range ct.length).map fun i => ct.getD i 0#8 ^^^ P.ks s.env.key mode nonce (64 + i))) ∧
    (ct = [] → kxuData P mode nonce ct s = (s, []))

/-- Rule R98: the data pass undoes what the SEAL pass did to the data string. -/
def Obligations.KxuDataUndoesKxuRun : Prop :=
  ∀ (P : Config.Params) (mode : NonceMode) (nonce d : List Byte) (s t : State), P.Legal → t.env.key = s.env.key →
    (kxuData P mode nonce (kxuRun P mode nonce d s).2 t).2 = d

/-- Rule R90: two implementations that differ only in their lane count complete SEAL and OPEN alike. -/
def Obligations.LaneCountHasNoEffect : Prop :=
  ∀ (P : Config.Params) (w : Nat) (s : State), P.Legal → w ∈ [1, 2, 4, 8, 16, 32, 64] →
    sealCommand { P with lanes := w } s = sealCommand P s ∧ openCommand { P with lanes := w } s = openCommand P s

/-- Rules R93, R94: keystream bytes 32 to 63 reach nothing (changing them changes no outcome of SEAL or OPEN), and data is
XORed only with keystream from position 64 on. -/
def Obligations.KeystreamBelow64NeverReachesData : Prop :=
  (∀ (P : Config.Params) (ks' : List Byte → NonceMode → List Byte → Nat → Byte) (s : State), P.Legal →
    (∀ key mode nonce p, p < 32 ∨ 64 ≤ p → ks' key mode nonce p = P.ks key mode nonce p) →
    sealCommand { P with ks := ks' } s = sealCommand P s ∧ openCommand { P with ks := ks' } s = openCommand P s) ∧
  (∀ (P : Config.Params) (ks' : List Byte → NonceMode → List Byte → Nat → Byte) (mode : NonceMode)
    (nonce d : List Byte) (s : State), P.Legal →
    (∀ key mode nonce p, 64 ≤ p → ks' key mode nonce p = P.ks key mode nonce p) →
    (kxuRun { P with ks := ks' } mode nonce d s).2 = (kxuRun P mode nonce d s).2 ∧
    (kxuData { P with ks := ks' } mode nonce d s).2 = (kxuData P mode nonce d s).2)

/-- Rule R87: every keystream position a command asks for is below 64 + D_CAP - 16. -/
def Obligations.RequestedPositionsStayBelowTheCap : Prop :=
  ∀ (i : Instr) (s t : State), exec i s = .next t →
    ∃ cs : List PortCall, t.env.calls = s.env.calls ++ cs ∧
      ∀ c ∈ cs, ∀ mode nonce p, c = .ks mode nonce p → p < 64 + Config.params.dCap - 16

/-- Rules R71, R89: a SEAL or OPEN past its checks, both collaborators answering, calls the MAC exactly once; stopped at a
check, or any other command, it calls nothing. That a SEAL or OPEN past its checks whose collaborator does NOT answer calls
nothing is the model's choice, not a rule's (log 9), and the record of calls is the model's own (log 10). -/
def Obligations.MacIsCalledExactlyOnce : Prop :=
  ∀ (i : Instr) (s t : State), exec i s = .next t →
    ∃ cs : List PortCall, t.env.calls = s.env.calls ++ cs ∧
      ((i = .sealCmd ∧ SealReady s) ∨ (i = .openCmd ∧ OpenReady s) → cs.countP isMacCall = 1) ∧
      (¬((i = .sealCmd ∧ SealReady s) ∨ (i = .openCmd ∧ OpenReady s)) → cs = [])

/-! ### STATUS, acceptance, interrupt -/

/-- Rule R63: a 4-byte CMD write, by its three cases; acceptance also samples the key port (log 7). -/
def Obligations.CmdWriteIsHandledByItsCase : Prop :=
  ∀ (s : State) (w : Word),
    perform Config.params (.write 0x008#23 .word w) s = respond (okay 0#32)
      (if s.status.fault = true then s
       else if s.status.busy = true then { s with status := { s.status with bovr := true } }
       else { s with
        pendOpc := w, status := { s.status with busy := true, done := false }, keyLenIn := s.keyLen })

/-- Rules R22, R100: the word STATUS reads as, bit by bit, the numbers of the error codes, and the read that shows it, BUSY
or not. -/
def Obligations.StatusReadsItsFields : Prop :=
  ∀ s : State,
    perform Config.params (.read 0x00C#23 .word) s = respond (okay s.status.toWord) s ∧
    heldNow Config.params s (.read 0x00C#23 .word) = false ∧
    s.status.toWord.getLsbD 0 = s.status.busy ∧ s.status.toWord.getLsbD 1 = s.status.done ∧
    s.status.toWord.getLsbD 2 = s.status.instValid ∧
    (s.status.toWord.getLsbD 3 = true ↔ s.status.mode = .extended) ∧
    s.status.toWord.getLsbD 4 = s.status.authOk ∧ s.status.toWord.getLsbD 5 = s.status.fault ∧
    s.status.toWord.getLsbD 6 = s.status.bovr ∧ s.status.toWord.getLsbD 7 = false ∧
    s.status.toWord.extractLsb' 8 4 = s.status.errcode.bits ∧ s.status.toWord.extractLsb' 12 20 = 0#20 ∧
    [ErrCode.ok, .invalidKeySize, .invalidNonceSize, .authFailed, .notInitialised, .illegalCommand, .lengthError].map
      ErrCode.bits = [0#4, 1#4, 2#4, 3#4, 4#4, 5#4, 6#4]

/-- Rules R22, R44: a STATUS write of any size clears DONE and BOVR by bits 1 and 6 of its byte 0, and does nothing else. -/
def Obligations.StatusWriteClearsDoneAndBovr : Prop :=
  ∀ (s : State) (off : Offset) (size : Size) (v : Word), 0x00C ≤ off.toNat → off.toNat ≤ 0x00F →
    (Access.write off size v).aligned = true →
    perform Config.params (.write off size v) s = respond (okay 0#32)
      { s with
        status :=
          { s.status with
            done := s.status.done && !(off.toNat == 0x00C && v.getLsbD 1)
            bovr := s.status.bovr && !(off.toNat == 0x00C && v.getLsbD 6) } }

/-- Rules R119, R64, R75: only the engine and a reset change ERRCODE, AUTH_OK, FAULT and the instance binding. -/
def Obligations.ResultFieldsChangeOnlyAtCompletion : Prop :=
  ∀ s t : State, step s = .next t → resetsNow s = false → ¬ engineMoves s →
    t.status.errcode = s.status.errcode ∧ t.status.authOk = s.status.authOk ∧ t.status.fault = s.status.fault ∧
    t.status.instValid = s.status.instValid ∧ t.status.mode = s.status.mode

/-- Rules R23, R75: a step that changes INST_VALID or MODE completes an INIT, or is a reset. -/
def Obligations.InstanceChangesOnlyByInitOrReset : Prop :=
  ∀ s t : State, step s = .next t →
    (t.status.instValid ≠ s.status.instValid ∨ t.status.mode ≠ s.status.mode) →
    resetsNow s = true ∨ (s.status.busy = true ∧ s.pendOpc = 1#32)

/-- Rule R109: the line, what raises it and what lowers it. -/
def Obligations.InterruptFollowsDone : Prop :=
  (∀ s : State, s.afxIrq = true ↔ s.status.done = true ∧ s.cfg.ie = true) ∧
  (∀ (i : Instr) (s t : State), exec i s = .next t → t.status.busy = false → s.status.busy = true →
    t.afxIrq = s.cfg.ie) ∧
  (∀ (w : Word) (s : State), (accept w s).afxIrq = false ∧ (resetBlock s).afxIrq = false) ∧
  (∀ (v : Word) (s : State), v.getLsbD 1 = true →
    (perform Config.params (.write 0x00C#23 .word v) s).afxIrq = false) ∧
  (∀ s : State, (State.afxIrq { s with status := s.status.overrun }) = s.afxIrq)

/-- Rule R118: a CMD write while BUSY is ignored but for BOVR, which stays until the host clears it or a reset. -/
def Obligations.OverrunSetsBovrUntilCleared : Prop :=
  (∀ (s : State) (w : Word), s.status.fault = false → s.status.busy = true →
    perform Config.params (.write 0x008#23 .word w) s =
      respond (okay 0#32) { s with status := { s.status with bovr := true } }) ∧
  (∀ s t : State, step s = .next t → s.status.bovr = true → t.status.bovr = false →
    resetsNow s = true ∨ ∃ (size : Size) (v : Word), served s = some (.write 0x00C#23 size v) ∧ v.getLsbD 6 = true)

/-- Rules R101, R122: FAULT ignores every CMD write silently, holds no access, and lasts until a reset. -/
def Obligations.FaultLastsUntilReset : Prop :=
  (∀ (s : State) (w : Word), s.status.fault = true →
    perform Config.params (.write 0x008#23 .word w) s = respond (okay 0#32) s) ∧
  (∀ (s : State) (a : Access), Invariant s → s.status.fault = true → heldNow Config.params s a = false) ∧
  (∀ s t : State, Invariant s → s.status.fault = true → resetsNow s = false → step s = .next t →
    t.status.fault = true ∧ t.status.busy = false ∧ t.status.errcode = .invalidNonceSize) ∧
  (∀ s t : State, resetsNow s = true → step s = .next t → t.status.fault = false)

/-! ### The bus -/

/-- Rules R19, R29, R30: ID, OVERHEAD, AD_CAP_R and D_CAP_R read their constants in every state, and ignore every write. -/
def Obligations.ConstantRegistersReadTheirValues : Prop :=
  ∀ s : State,
    perform Config.params (.read 0x000#23 .word) s = respond (okay 0x41465801#32) s ∧
    perform Config.params (.read 0x024#23 .word) s = respond (okay 0x00000010#32) s ∧
    (∃ a : Word, perform Config.params (.read 0x028#23 .word) s = respond (okay a) s ∧ a.toNat = Config.params.adCap) ∧
    (∃ d : Word, perform Config.params (.read 0x02C#23 .word) s = respond (okay d) s ∧ d.toNat = Config.params.dCap) ∧
    ∀ (off : Offset) (size : Size) (v : Word), off.toNat < 4 ∨ (0x024 ≤ off.toNat ∧ off.toNat < 0x030) →
      (Access.write off size v).aligned = true → perform Config.params (.write off size v) s = respond (okay 0#32) s

/-- Rule R7: the implementation's sizes are legal, whatever they are. -/
def Obligations.ParametersAreLegal : Prop := Config.params.Legal

/-- Rule R28: NONCE_SIZE, its three values, and that writes are ignored. -/
def Obligations.NonceSizeReadsTheMode : Prop :=
  ∀ s : State,
    (s.status.instValid = false → perform Config.params (.read 0x020#23 .word) s = respond (okay 0#32) s) ∧
    (s.status.instValid = true → s.status.mode = .short →
      perform Config.params (.read 0x020#23 .word) s = respond (okay 8#32) s) ∧
    (s.status.instValid = true → s.status.mode = .extended →
      perform Config.params (.read 0x020#23 .word) s = respond (okay 24#32) s) ∧
    ∀ (off : Offset) (size : Size) (v : Word), 0x020 ≤ off.toNat → off.toNat < 0x024 →
      (Access.write off size v).aligned = true → perform Config.params (.write off size v) s = respond (okay 0#32) s

/-- Rule R46: a misaligned access of either kind gets ERROR with data 0 and changes nothing. -/
def Obligations.MisalignedAccessIsRefused : Prop :=
  ∀ (s : State) (off : Offset) (size : Size) (v : Word), off.toNat % size.bytes ≠ 0 →
    perform Config.params (.read off size) s = respond { okay := false, data := 0#32 } s ∧
    perform Config.params (.write off size v) s = respond { okay := false, data := 0#32 } s

/-- Rules R41, R45, R103: an access outside the register page and the two buffers gets ERROR and changes nothing; an aligned
access inside gets OKAY. -/
def Obligations.UnmappedAccessIsRefused : Prop :=
  ∀ (s : State) (a : Access),
    ((0x001000 ≤ a.offset ∧ a.offset < 0x100000) ∨
      (0x100000 + Config.params.adCap ≤ a.offset ∧ a.offset < 0x400000) ∨ 0x400000 + Config.params.dCap ≤ a.offset →
      perform Config.params a s = respond { okay := false, data := 0#32 } s) ∧
    (a.offset < 0x001000 ∨ (0x100000 ≤ a.offset ∧ a.offset < 0x100000 + Config.params.adCap) ∨
      (0x400000 ≤ a.offset ∧ a.offset < 0x400000 + Config.params.dCap) → a.aligned = true →
      ∃ r : Response, (perform Config.params a s).env.response = some r ∧ r.okay = true)

/-- Rule R47: a read changes nothing but the response it returns. -/
def Obligations.ReadsHaveNoSideEffect : Prop :=
  ∀ (s : State) (off : Offset) (size : Size), ∃ r : Response,
    perform Config.params (.read off size) s = { s with env := { s.env with response := some r } }

/-- Rules R43, R47: an aligned write to NONCE, ADBUF or DBUF stores its bytes, little-endian, and nothing else. -/
def Obligations.BufferWriteStoresItsBytes : Prop :=
  ∀ (s : State) (off : Offset) (size : Size) (v : Word), InBuffer Config.params off.toNat →
    (Access.write off size v).aligned = true →
    ∃ m : Memory,
      perform Config.params (.write off size v) s = respond (okay 0#32) { s with mem := m } ∧
      (∀ k < size.bytes, m.read (off.toNat + k) = v.extractLsb' (8 * k) 8) ∧
      (∀ a, a < off.toNat ∨ off.toNat + size.bytes ≤ a → m.read a = s.mem.read a)

/-- Rules R20, R25, R26, R27, R43, R44, R49: what reads return. A word written to a buffer, AD_LEN or D_LEN reads back; AD_LEN,
D_LEN, CFG and NONCE_LEN read their fields in place, reserved bits zero; an aligned read of any size returns the buffer bytes at
its offset, or the addressed bytes of the word that its register reads as, lowest offset least significant, zeros above. -/
def Obligations.WordReadsBackAsWritten : Prop :=
  (∀ (s : State) (off : Offset) (v : Word),
    InBuffer Config.params off.toNat ∨ off = 0x014#23 ∨ off = 0x018#23 → off.toNat % 4 = 0 →
    (perform Config.params (.read off .word) (perform Config.params (.write off .word v) s)).env.response =
      some (okay v)) ∧
  (∀ s : State,
    perform Config.params (.read 0x014#23 .word) s = respond (okay s.adLen) s ∧
    perform Config.params (.read 0x018#23 .word) s = respond (okay s.dLen) s ∧
    (∃ w : Word, perform Config.params (.read 0x004#23 .word) s = respond (okay w) s ∧
      w.getLsbD 0 = s.cfg.ext ∧ w.getLsbD 1 = s.cfg.ie ∧ w.extractLsb' 2 30 = 0#30) ∧
    (∃ w : Word, perform Config.params (.read 0x01C#23 .word) s = respond (okay w) s ∧
      w.extractLsb' 0 8 = s.nonceLen ∧ w.extractLsb' 8 24 = 0#24)) ∧
  (∀ (s : State) (off : Offset) (size : Size), InBuffer Config.params off.toNat → off.toNat % size.bytes = 0 →
    ∃ v : Word, perform Config.params (.read off size) s = respond (okay v) s ∧
      ∀ k < 4, v.extractLsb' (8 * k) 8 = if k < size.bytes then s.mem.read (off.toNat + k) else 0#8) ∧
  (∀ (s : State) (off base : Offset) (size : Size), off.toNat < 0x030 → off.toNat % size.bytes = 0 →
    base.toNat = off.toNat - off.toNat % 4 →
    ∃ w v : Word,
      perform Config.params (.read base .word) s = respond (okay w) s ∧
      perform Config.params (.read off size) s = respond (okay v) s ∧
      ∀ k < 4, v.extractLsb' (8 * k) 8 = if k < size.bytes then w.extractLsb' (8 * (off.toNat % 4 + k)) 8 else 0#8)

/-- Rule R44 on AD_LEN and D_LEN: a write replaces the addressed bytes and no other. -/
def Obligations.NarrowWriteReplacesItsBytes : Prop :=
  ∀ (s : State) (off : Offset) (size : Size) (v : Word), (Access.write off size v).aligned = true →
    (off.toNat / 4 = 5 → ∃ w : Word,
      perform Config.params (.write off size v) s = respond (okay 0#32) { s with adLen := w } ∧
      ∀ k < 4, w.extractLsb' (8 * k) 8 =
        if off.toNat % 4 ≤ k ∧ k < off.toNat % 4 + size.bytes then v.extractLsb' (8 * (k - off.toNat % 4)) 8
        else s.adLen.extractLsb' (8 * k) 8) ∧
    (off.toNat / 4 = 6 → ∃ w : Word,
      perform Config.params (.write off size v) s = respond (okay 0#32) { s with dLen := w } ∧
      ∀ k < 4, w.extractLsb' (8 * k) 8 =
        if off.toNat % 4 ≤ k ∧ k < off.toNat % 4 + size.bytes then v.extractLsb' (8 * (k - off.toNat % 4)) 8
        else s.dLen.extractLsb' (8 * k) 8)

/-- Rules R20, R27: a write to CFG or NONCE_LEN reaches its fields if it writes byte 0, and only its fields. -/
def Obligations.ConfigurationWritesReachTheirFields : Prop :=
  ∀ (s : State) (off : Offset) (size : Size) (v : Word), (Access.write off size v).aligned = true →
    (off.toNat = 0x004 → perform Config.params (.write off size v) s =
      respond (okay 0#32) { s with cfg := { ext := v.getLsbD 0, ie := v.getLsbD 1 } }) ∧
    (off.toNat = 0x01C → perform Config.params (.write off size v) s =
      respond (okay 0#32) { s with nonceLen := v.extractLsb' 0 8 }) ∧
    ((0x005 ≤ off.toNat ∧ off.toNat ≤ 0x007) ∨ (0x01D ≤ off.toNat ∧ off.toNat ≤ 0x01F) →
      perform Config.params (.write off size v) s = respond (okay 0#32) s)

/-- Rules R18, R21, R24: reserved offsets of the register page read zero and ignore writes; CMD and CTRL read zero; a narrow
write to CMD is ignored. -/
def Obligations.ReservedAndWriteOnlyOffsets : Prop :=
  ∀ (s : State) (off : Offset) (size : Size) (v : Word), off.toNat % size.bytes = 0 →
    ((0x030 ≤ off.toNat ∧ off.toNat < 0x100) ∨ (0x118 ≤ off.toNat ∧ off.toNat < 0x1000) →
      perform Config.params (.read off size) s = respond (okay 0#32) s ∧
      perform Config.params (.write off size v) s = respond (okay 0#32) s) ∧
    (off.toNat / 4 = 2 ∨ off.toNat / 4 = 4 → perform Config.params (.read off size) s = respond (okay 0#32) s) ∧
    (off.toNat / 4 = 2 → size ≠ .word → perform Config.params (.write off size v) s = respond (okay 0#32) s)

/-- Rules R41, R49, R51, R117: while BUSY an access to CFG, AD_LEN, D_LEN, NONCE_LEN, NONCE_SIZE or a buffer, misaligned or not,
waits at the port, with no response, and any other access is served at once; once BUSY is 0 the waiting access is served, before the host's next
one, which stays where it is. The port slot and the schedule, and that a waiting access goes on when nothing is scheduled, are
the model's own (logs 4 and 5); that a misaligned access is held too is log 6. -/
def Obligations.HeldAccessesWait : Prop :=
  ∀ (s : State) (a : Access) (rest : List Event),
    (s.env.sched = .host a :: rest → s.env.port = none → s.status.busy = true →
      (a.offset / 4 ∈ [1, 5, 6, 7, 8] ∨ InBuffer Config.params a.offset →
        step s = .next { s with env := { s.env with sched := rest, port := some a } }) ∧
      (¬(a.offset / 4 ∈ [1, 5, 6, 7, 8] ∨ InBuffer Config.params a.offset) →
        step s = .next (perform Config.params a { s with env := { s.env with sched := rest } }))) ∧
    (s.env.port = some a → s.status.busy = false → (s.env.sched = [] ∨ ∃ b, s.env.sched = .host b :: rest) →
      step s = .next (perform Config.params a { s with env := { s.env with port := none } })) ∧
    (s.env.sched = .host a :: rest → s.env.port = none → s.status.busy = false →
      step s = .next (perform Config.params a { s with env := { s.env with sched := rest } }))

/-- Rule R50: while a command is in progress, nothing but the engine and a reset changes what the command reads. -/
def Obligations.InputsAreProtectedWhileBusy : Prop :=
  ∀ s t : State, s.status.busy = true → ¬ engineMoves s → resetsNow s = false → step s = .next t →
    t.status.busy = true ∧ t.pendOpc = s.pendOpc ∧ t.keyLenIn = s.keyLenIn ∧ t.cfg = s.cfg ∧ t.adLen = s.adLen ∧
    t.dLen = s.dLen ∧ t.nonceLen = s.nonceLen ∧ t.mem = s.mem ∧ t.status.instValid = s.status.instValid ∧
    t.status.mode = s.status.mode

/-! ### Reset -/

/-- Rules R39, R113: the reset values the spec gives. -/
def Obligations.ResetValues : Prop :=
  (∀ off : Offset, off ∈ [0x004#23, 0x008#23, 0x00C#23, 0x010#23, 0x014#23, 0x018#23, 0x01C#23, 0x020#23] →
    perform Config.params (.read off .word) State.reset = respond (okay 0#32) State.reset) ∧
  (∀ a, State.reset.mem.read a = 0#8) ∧ Scrubbed State.reset ∧ State.reset.pendOpc = 0#32 ∧
  State.reset.status.instValid = false ∧ State.reset.status.mode = .short ∧ State.reset.status.fault = false ∧
  State.reset.afxIrq = false

/-- Rules R24, R113, R114: `afx_rst` and CTRL.SRST put every field of the block at its reset value, in every state; a CTRL
write that does not write bit 0 as 1 does nothing. -/
def Obligations.BothResetsRestoreEveryField : Prop :=
  (∀ (s : State) (rest : List Event), s.env.sched = .hardReset :: rest →
    step s = .next { State.reset with env := { s.env with sched := rest } }) ∧
  (∀ (s : State) (size : Size) (v : Word), v.getLsbD 0 = true →
    heldNow Config.params s (.write 0x010#23 size v) = false ∧
    perform Config.params (.write 0x010#23 size v) s = respond (okay 0#32) { State.reset with env := s.env }) ∧
  (∀ (s : State) (off : Offset) (size : Size) (v : Word), off.toNat / 4 = 4 → off.toNat % size.bytes = 0 →
    off.toNat ≠ 0x010 ∨ v.getLsbD 0 = false → perform Config.params (.write off size v) s = respond (okay 0#32) s)

/-! ### Whole-machine rules -/

/-- The invariant holds after reset. -/
def Obligations.InvariantHoldsAtReset : Prop := Invariant State.reset

/-- Rules R13, R14, R22, R23, R38, R63, R64, R99, R101, R117: every step keeps the invariant, from every state that has it. -/
def Obligations.EveryStepKeepsTheInvariant : Prop := ∀ s t : State, Invariant s → step s = .next t → Invariant t

/-- Rules R64, R101: the engine's turn ends the command in progress, if the collaborators answer: DONE set, BUSY and the latch
cleared, and AUTH_OK 1 only for an OPEN that ends OK. Which ERRCODE it leaves is `TheFirstConditionDecides`. -/
def Obligations.TheEngineEndsTheCommand : Prop :=
  ∀ s : State, s.status.busy = true → collaboratorsAnswer s = true →
    ∃ t : State, exec (decodeWord s.pendOpc) s = .next t ∧ t.status.busy = false ∧ t.status.done = true ∧
      t.pendOpc = 0#32 ∧ (t.status.authOk = true → s.pendOpc = 3#32 ∧ t.status.errcode = .ok)

/-- Rules R34 to R37, R48, R110: what the secret registers held before changes nothing but what they hold: states that
differ only there step to states that differ only there, responses and port calls included. -/
def Obligations.SecretRegistersAreUnobservable : Prop :=
  ∀ (s t : State) (o : Vector Byte 32) (e : Vector Byte 16) (k : Vector Byte 64) (c : Byte), step s = .next t →
    ∃ o' e' k' c', step (withSecrets o e k c s) = .next (withSecrets o' e' k' c' t)

/-- Rules R83, R85: which bytes of the received tag differ changes nothing of an OPEN's outcome: a state that differs only in
those bytes, and still mismatches, ends the same. -/
def Obligations.AuthFailureRevealsNothing : Prop :=
  ∀ (s t : State) (m : Memory), Latched .openCmd s → OpenReady s → openTag s ≠ receivedTag s →
    (∀ a, a < dBase + (s.dLen.toNat - 16) ∨ dBase + s.dLen.toNat ≤ a → m.read a = s.mem.read a) →
    openTag s ≠ receivedTag { s with mem := m } → exec .openCmd s = .next t →
    exec .openCmd { s with mem := m } = .next { t with mem := m }
end

