-- ==== Sys2Proof/Laws/Memory.lean ====
section
/-! SUPPORT. The byte memory: what a read finds after each operation, and that each keeps the canonical form. -/

namespace Sys2Proof.Machine

@[simp] theorem Memory.read_nil (a : Nat) : Memory.read [] a = 0#8 := rfl

theorem Memory.read_filter (m : Memory) (p : Nat → Bool) (a : Nat) :
    Memory.read (m.filter fun c => p c.1) a = if p a then m.read a else 0#8 := by
  induction m with
  | nil => simp
  | cons c m ih =>
    obtain ⟨k, v⟩ := c
    by_cases hk : p k <;> by_cases hka : k = a <;> simp_all [Memory.read]

theorem Memory.read_insert (m : Memory) (a : Nat) (b : Byte) (h : ∀ c ∈ m, c.1 ≠ a) (a' : Nat) :
    Memory.read (m.insert a b) a' = if a = a' then b else m.read a' := by
  induction m with
  | nil => simp [Memory.insert, Memory.read]
  | cons c m ih =>
    obtain ⟨k, v⟩ := c
    have hk : k ≠ a := h (k, v) (by simp)
    have ih := ih fun c hc => h c (by simp [hc])
    simp only [Memory.insert]
    by_cases hlt : a < k
    · rw [if_pos hlt]; simp [Memory.read]
    · rw [if_neg hlt]
      simp only [Memory.read, ih]
      by_cases hka : k = a'
      · simp [hka, show a ≠ a' by omega]
      · simp [hka]

/-- Read after write: the byte written at its offset, every other byte as before. -/
theorem Memory.read_write (m : Memory) (a : Nat) (b : Byte) (a' : Nat) :
    (m.write a b).read a' = if a = a' then b else m.read a' := by
  have hf := Memory.read_filter m (fun k => k != a) a'
  unfold Memory.write
  split
  · rename_i hb
    rw [hf]
    by_cases h : a = a'
    · subst h; simp [hb]
    · simp [h, Ne.symm h]
  · rw [Memory.read_insert _ _ _ (by simp), hf]
    by_cases h : a = a'
    · simp [h]
    · simp [h, Ne.symm h]

/-- Read after a write of a byte string: its bytes where it lies, every other byte as before. -/
theorem Memory.read_writeBytes (m : Memory) (base : Nat) (bs : List Byte) (a : Nat) :
    (m.writeBytes base bs).read a =
      if base ≤ a ∧ a < base + bs.length then bs.getD (a - base) 0#8 else m.read a := by
  induction bs generalizing m base with
  | nil => rw [Memory.writeBytes, if_neg (by simp)]
  | cons b bs ih =>
    rw [Memory.writeBytes, ih, Memory.read_write]
    by_cases h1 : base = a
    · subst h1; simp
    · by_cases h2 : base + 1 ≤ a ∧ a < base + 1 + bs.length
      · have : a - base = (a - (base + 1)) + 1 := by omega
        rw [if_pos h2, if_pos (by simp; omega), this]; simp
      · rw [if_neg h2, if_neg h1, if_neg (by simp; omega)]

/-- Read after clearing a range. -/
theorem Memory.read_clear (m : Memory) (base len a : Nat) :
    (m.clear base len).read a = if base ≤ a ∧ a < base + len then 0#8 else m.read a := by
  have := Memory.read_filter m (fun k => !(base ≤ k && k < base + len)) a
  rw [Memory.clear, this]
  by_cases h1 : base ≤ a <;> by_cases h2 : a < base + len <;> simp [h1, h2]

theorem Memory.length_readBytes (m : Memory) (base len : Nat) : (m.readBytes base len).length = len := by
  simp [Memory.readBytes]

theorem Memory.getD_readBytes (m : Memory) (base len i : Nat) (h : i < len) :
    (m.readBytes base len).getD i 0#8 = m.read (base + i) := by
  simp [Memory.readBytes, h]

/-- Two memories that agree on a range give the same byte string there. -/
theorem Memory.readBytes_congr (m m' : Memory) (base len : Nat) (h : ∀ i < len, m'.read (base + i) = m.read (base + i)) :
    m'.readBytes base len = m.readBytes base len := by
  simp only [Memory.readBytes]
  exact List.map_congr_left fun i hi => h i (List.mem_range.mp hi)

theorem Memory.mem_insert (m : Memory) (a : Nat) (b : Byte) (c : Host.Cell) (h : c ∈ m.insert a b) :
    c = (a, b) ∨ c ∈ m := by
  induction m with
  | nil => simpa [Memory.insert] using h
  | cons d m ih =>
    simp only [Memory.insert] at h
    split at h
    · simpa using h
    · rcases List.mem_cons.mp h with rfl | h
      · simp
      · rcases ih h with h | h <;> simp [h]

theorem Memory.wf_insert (m : Memory) (a : Nat) (b : Byte) (hm : m.wf) (hb : b ≠ 0#8) (h : ∀ c ∈ m, c.1 ≠ a) :
    (m.insert a b).wf := by
  induction m with
  | nil => exact ⟨by simp [Memory.insert], by simp [Memory.insert, hb]⟩
  | cons c m ih =>
    obtain ⟨hp, hz⟩ := hm
    obtain ⟨hc, hp⟩ := List.pairwise_cons.mp hp
    have hca : c.1 ≠ a := h c (by simp)
    have ih := ih ⟨hp, fun d hd => hz d (by simp [hd])⟩ fun d hd => h d (by simp [hd])
    have hzc : c.2 ≠ 0#8 := hz c (by simp)
    have hzm : ∀ d ∈ m, d.2 ≠ 0#8 := fun d hd => hz d (by simp [hd])
    simp only [Memory.insert]
    split
    · rename_i hlt
      refine ⟨List.pairwise_cons.mpr ⟨?_, List.pairwise_cons.mpr ⟨hc, hp⟩⟩, ?_⟩
      · intro d hd
        rcases List.mem_cons.mp hd with rfl | hd
        · exact hlt
        · exact lt_trans hlt (hc d hd)
      · intro d hd
        rcases List.mem_cons.mp hd with rfl | hd
        · exact hb
        · exact hz d hd
    · rename_i hlt
      refine ⟨List.pairwise_cons.mpr ⟨?_, ih.1⟩, ?_⟩
      · intro d hd
        rcases Memory.mem_insert m a b d hd with rfl | hd
        · exact lt_of_le_of_ne (not_lt.mp hlt) hca
        · exact hc d hd
      · intro d hd
        rcases List.mem_cons.mp hd with rfl | hd
        · exact hzc
        · exact ih.2 d hd

theorem Memory.wf_filter (m : Memory) (p : Host.Cell → Bool) (hm : m.wf) : Memory.wf (m.filter p) :=
  ⟨hm.1.filter p, fun c hc => hm.2 c (List.mem_filter.mp hc).1⟩

theorem Memory.wf_nil : Memory.wf [] := ⟨List.Pairwise.nil, by simp⟩

/-- A byte write keeps the canonical form. -/
theorem Memory.wf_write (m : Memory) (a : Nat) (b : Byte) (hm : m.wf) : (m.write a b).wf := by
  unfold Memory.write
  split
  · exact Memory.wf_filter m _ hm
  · rename_i hb
    exact Memory.wf_insert _ a b (Memory.wf_filter m _ hm) hb (by simp)

/-- A write of a byte string keeps the canonical form. -/
theorem Memory.wf_writeBytes (m : Memory) (base : Nat) (bs : List Byte) (hm : m.wf) : (m.writeBytes base bs).wf := by
  induction bs generalizing m base with
  | nil => exact hm
  | cons b bs ih => exact ih _ _ (Memory.wf_write m base b hm)

/-- Clearing a range keeps the canonical form. -/
theorem Memory.wf_clear (m : Memory) (base len : Nat) (hm : m.wf) : (m.clear base len).wf := Memory.wf_filter m _ hm

theorem Memory.mem_write (m : Memory) (a : Nat) (b : Byte) (c : Host.Cell) (h : c ∈ m.write a b) :
    c.1 = a ∨ c ∈ m := by
  unfold Memory.write at h
  split at h
  · exact .inr (List.mem_filter.mp h).1
  · rcases Memory.mem_insert _ _ _ _ h with rfl | h
    · exact .inl rfl
    · exact .inr (List.mem_filter.mp h).1

/-- A write of a byte string lists no offset outside the string. -/
theorem Memory.mem_writeBytes (m : Memory) (base : Nat) (bs : List Byte) (c : Host.Cell) (h : c ∈ m.writeBytes base bs) :
    (base ≤ c.1 ∧ c.1 < base + bs.length) ∨ c ∈ m := by
  induction bs generalizing m base with
  | nil => exact .inr h
  | cons b bs ih =>
    rcases ih _ _ h with h | h
    · left; simp; omega
    · rcases Memory.mem_write _ _ _ _ h with h | h
      · left; simp; omega
      · exact .inr h

theorem Memory.mem_clear (m : Memory) (base len : Nat) (c : Host.Cell) (h : c ∈ m.clear base len) : c ∈ m :=
  (List.mem_filter.mp h).1

theorem Memory.read_eq_zero_of_lt (m : Memory) (a : Nat) (h : ∀ c ∈ m, a < c.1) : m.read a = 0#8 := by
  induction m with
  | nil => rfl
  | cons c m ih =>
    have hc := h c (by simp)
    have ih := ih fun d hd => h d (by simp [hd])
    simp only [Memory.read]
    rw [if_neg (by omega), ih]

theorem Memory.read_head (k : Nat) (v : Byte) (m : Memory) : Memory.read ((k, v) :: m) k = v := by simp [Memory.read]

/-- Canonical memories that read alike everywhere are equal data. -/
theorem Memory.ext_of_read (m m' : Memory) (hm : m.wf) (hm' : m'.wf) (h : ∀ a, m.read a = m'.read a) : m = m' := by
  have rise : ∀ {c : Host.Cell} {l : Memory}, Memory.wf (c :: l) → ∀ a ≤ c.1, l.read a = 0#8 := fun hl a ha =>
    Memory.read_eq_zero_of_lt _ a fun d hd => lt_of_le_of_lt ha ((List.pairwise_cons.mp hl.1).1 d hd)
  have tail : ∀ {c : Host.Cell} {l : Memory}, Memory.wf (c :: l) → Memory.wf l := fun hl =>
    ⟨(List.pairwise_cons.mp hl.1).2, fun d hd => hl.2 d (List.mem_cons_of_mem _ hd)⟩
  induction m generalizing m' with
  | nil =>
    cases m' with
    | nil => rfl
    | cons d m' => exact absurd ((h d.1).symm.trans rfl) (by rw [Memory.read_head]; exact hm'.2 d (by simp))
  | cons c m ih =>
    cases m' with
    | nil => exact absurd (h c.1) (by rw [Memory.read_head]; exact hm.2 c (by simp))
    | cons d m' =>
      obtain ⟨k, v⟩ := c
      obtain ⟨k', v'⟩ := d
      have hv : v ≠ 0#8 := hm.2 (k, v) (by simp)
      have hv' : v' ≠ 0#8 := hm'.2 (k', v') (by simp)
      have hk : k = k' := by
        rcases lt_trichotomy k k' with hlt | heq | hlt
        · refine absurd (h k) ?_
          rw [Memory.read_head, Memory.read, if_neg (by omega), rise hm' k (le_of_lt hlt)]; exact hv
        · exact heq
        · refine absurd (h k').symm ?_
          rw [Memory.read_head, Memory.read, if_neg (by omega), rise hm k' (le_of_lt hlt)]; exact hv'
      subst hk
      have hvv : v = v' := by simpa [Memory.read] using h k
      subst hvv
      rw [ih m' (tail hm) (tail hm') fun a => ?_]
      by_cases ha : k = a
      · subst ha; rw [rise hm k (le_refl k), rise hm' k (le_refl k)]
      · simpa [Memory.read, ha] using h a

end Sys2Proof.Machine
end

