-- ==== Sys2Proof/Laws/State.lean ====
section
/-! SUPPORT. One lemma per field per named update of State, true by rfl, so that no proof unfolds a record update. -/

namespace Sys2Proof.Machine

/-! ### completion (rule R64) -/

@[simp] theorem finish_cfg (code : ErrCode) (s : State) : (finish code s).cfg = s.cfg := rfl
@[simp] theorem finish_status (code : ErrCode) (s : State) : (finish code s).status = s.status.finished s.pendOpc code := rfl
@[simp] theorem finish_adLen (code : ErrCode) (s : State) : (finish code s).adLen = s.adLen := rfl
@[simp] theorem finish_dLen (code : ErrCode) (s : State) : (finish code s).dLen = s.dLen := rfl
@[simp] theorem finish_nonceLen (code : ErrCode) (s : State) : (finish code s).nonceLen = s.nonceLen := rfl
@[simp] theorem finish_mem (code : ErrCode) (s : State) : (finish code s).mem = s.mem := rfl
@[simp] theorem finish_otk (code : ErrCode) (s : State) : (finish code s).otk = s.otk := rfl
@[simp] theorem finish_etag (code : ErrCode) (s : State) : (finish code s).etag = s.etag := rfl
@[simp] theorem finish_kstage (code : ErrCode) (s : State) : (finish code s).kstage = s.kstage := rfl
@[simp] theorem finish_acc (code : ErrCode) (s : State) : (finish code s).acc = s.acc := rfl
@[simp] theorem finish_pendOpc (code : ErrCode) (s : State) : (finish code s).pendOpc = 0#32 := rfl
@[simp] theorem finish_keyLenIn (code : ErrCode) (s : State) : (finish code s).keyLenIn = s.keyLenIn := rfl
@[simp] theorem finish_env (code : ErrCode) (s : State) : (finish code s).env = s.env := rfl

/-! ### the fault entry (rule R101) -/

@[simp] theorem raiseInvalidNonceSize_cfg (s : State) : (raiseInvalidNonceSize s).cfg = s.cfg := rfl
@[simp] theorem raiseInvalidNonceSize_status (s : State) : (raiseInvalidNonceSize s).status = s.status.faulted := rfl
@[simp] theorem raiseInvalidNonceSize_adLen (s : State) : (raiseInvalidNonceSize s).adLen = s.adLen := rfl
@[simp] theorem raiseInvalidNonceSize_dLen (s : State) : (raiseInvalidNonceSize s).dLen = s.dLen := rfl
@[simp] theorem raiseInvalidNonceSize_nonceLen (s : State) : (raiseInvalidNonceSize s).nonceLen = s.nonceLen := rfl
@[simp] theorem raiseInvalidNonceSize_mem (s : State) : (raiseInvalidNonceSize s).mem = s.mem := rfl
@[simp] theorem raiseInvalidNonceSize_otk (s : State) : (raiseInvalidNonceSize s).otk = s.otk := rfl
@[simp] theorem raiseInvalidNonceSize_etag (s : State) : (raiseInvalidNonceSize s).etag = s.etag := rfl
@[simp] theorem raiseInvalidNonceSize_kstage (s : State) : (raiseInvalidNonceSize s).kstage = s.kstage := rfl
@[simp] theorem raiseInvalidNonceSize_acc (s : State) : (raiseInvalidNonceSize s).acc = s.acc := rfl
@[simp] theorem raiseInvalidNonceSize_pendOpc (s : State) : (raiseInvalidNonceSize s).pendOpc = 0#32 := rfl
@[simp] theorem raiseInvalidNonceSize_keyLenIn (s : State) : (raiseInvalidNonceSize s).keyLenIn = s.keyLenIn := rfl
@[simp] theorem raiseInvalidNonceSize_env (s : State) : (raiseInvalidNonceSize s).env = s.env := rfl

/-! ### scrubbing (rule R99) -/

@[simp] theorem scrub_cfg (s : State) : (scrub s).cfg = s.cfg := rfl
@[simp] theorem scrub_status (s : State) : (scrub s).status = s.status := rfl
@[simp] theorem scrub_adLen (s : State) : (scrub s).adLen = s.adLen := rfl
@[simp] theorem scrub_dLen (s : State) : (scrub s).dLen = s.dLen := rfl
@[simp] theorem scrub_nonceLen (s : State) : (scrub s).nonceLen = s.nonceLen := rfl
@[simp] theorem scrub_mem (s : State) : (scrub s).mem = s.mem := rfl
@[simp] theorem scrub_otk (s : State) : (scrub s).otk = Vector.replicate 32 0#8 := rfl
@[simp] theorem scrub_etag (s : State) : (scrub s).etag = Vector.replicate 16 0#8 := rfl
@[simp] theorem scrub_kstage (s : State) : (scrub s).kstage = Vector.replicate 64 0#8 := rfl
@[simp] theorem scrub_acc (s : State) : (scrub s).acc = 0#8 := rfl
@[simp] theorem scrub_pendOpc (s : State) : (scrub s).pendOpc = s.pendOpc := rfl
@[simp] theorem scrub_keyLenIn (s : State) : (scrub s).keyLenIn = s.keyLenIn := rfl
@[simp] theorem scrub_env (s : State) : (scrub s).env = s.env := rfl

/-! ### acceptance (rule R63) -/

@[simp] theorem accept_cfg (w : Word) (s : State) : (accept w s).cfg = s.cfg := rfl
@[simp] theorem accept_status (w : Word) (s : State) : (accept w s).status = s.status.accepted := rfl
@[simp] theorem accept_adLen (w : Word) (s : State) : (accept w s).adLen = s.adLen := rfl
@[simp] theorem accept_dLen (w : Word) (s : State) : (accept w s).dLen = s.dLen := rfl
@[simp] theorem accept_nonceLen (w : Word) (s : State) : (accept w s).nonceLen = s.nonceLen := rfl
@[simp] theorem accept_mem (w : Word) (s : State) : (accept w s).mem = s.mem := rfl
@[simp] theorem accept_otk (w : Word) (s : State) : (accept w s).otk = s.otk := rfl
@[simp] theorem accept_etag (w : Word) (s : State) : (accept w s).etag = s.etag := rfl
@[simp] theorem accept_kstage (w : Word) (s : State) : (accept w s).kstage = s.kstage := rfl
@[simp] theorem accept_acc (w : Word) (s : State) : (accept w s).acc = s.acc := rfl
@[simp] theorem accept_pendOpc (w : Word) (s : State) : (accept w s).pendOpc = w := rfl
@[simp] theorem accept_keyLenIn (w : Word) (s : State) : (accept w s).keyLenIn = s.keyLen := rfl
@[simp] theorem accept_env (w : Word) (s : State) : (accept w s).env = s.env := rfl

/-! ### reset (rule R113) -/

@[simp] theorem resetBlock_cfg (s : State) : (resetBlock s).cfg = State.reset.cfg := rfl
@[simp] theorem resetBlock_status (s : State) : (resetBlock s).status = State.reset.status := rfl
@[simp] theorem resetBlock_adLen (s : State) : (resetBlock s).adLen = State.reset.adLen := rfl
@[simp] theorem resetBlock_dLen (s : State) : (resetBlock s).dLen = State.reset.dLen := rfl
@[simp] theorem resetBlock_nonceLen (s : State) : (resetBlock s).nonceLen = State.reset.nonceLen := rfl
@[simp] theorem resetBlock_mem (s : State) : (resetBlock s).mem = State.reset.mem := rfl
@[simp] theorem resetBlock_otk (s : State) : (resetBlock s).otk = State.reset.otk := rfl
@[simp] theorem resetBlock_etag (s : State) : (resetBlock s).etag = State.reset.etag := rfl
@[simp] theorem resetBlock_kstage (s : State) : (resetBlock s).kstage = State.reset.kstage := rfl
@[simp] theorem resetBlock_acc (s : State) : (resetBlock s).acc = State.reset.acc := rfl
@[simp] theorem resetBlock_pendOpc (s : State) : (resetBlock s).pendOpc = State.reset.pendOpc := rfl
@[simp] theorem resetBlock_keyLenIn (s : State) : (resetBlock s).keyLenIn = State.reset.keyLenIn := rfl
@[simp] theorem resetBlock_env (s : State) : (resetBlock s).env = s.env := rfl

/-! ### a bus response (rule R40) -/

@[simp] theorem respond_cfg (r : Response) (s : State) : (respond r s).cfg = s.cfg := rfl
@[simp] theorem respond_status (r : Response) (s : State) : (respond r s).status = s.status := rfl
@[simp] theorem respond_adLen (r : Response) (s : State) : (respond r s).adLen = s.adLen := rfl
@[simp] theorem respond_dLen (r : Response) (s : State) : (respond r s).dLen = s.dLen := rfl
@[simp] theorem respond_nonceLen (r : Response) (s : State) : (respond r s).nonceLen = s.nonceLen := rfl
@[simp] theorem respond_mem (r : Response) (s : State) : (respond r s).mem = s.mem := rfl
@[simp] theorem respond_otk (r : Response) (s : State) : (respond r s).otk = s.otk := rfl
@[simp] theorem respond_etag (r : Response) (s : State) : (respond r s).etag = s.etag := rfl
@[simp] theorem respond_kstage (r : Response) (s : State) : (respond r s).kstage = s.kstage := rfl
@[simp] theorem respond_acc (r : Response) (s : State) : (respond r s).acc = s.acc := rfl
@[simp] theorem respond_pendOpc (r : Response) (s : State) : (respond r s).pendOpc = s.pendOpc := rfl
@[simp] theorem respond_keyLenIn (r : Response) (s : State) : (respond r s).keyLenIn = s.keyLenIn := rfl
@[simp] theorem respond_env (r : Response) (s : State) : (respond r s).env = { s.env with response := some r } := rfl

/-! ### the record of port calls -/

@[simp] theorem recordCalls_cfg (cs : List PortCall) (s : State) : (recordCalls cs s).cfg = s.cfg := rfl
@[simp] theorem recordCalls_status (cs : List PortCall) (s : State) : (recordCalls cs s).status = s.status := rfl
@[simp] theorem recordCalls_adLen (cs : List PortCall) (s : State) : (recordCalls cs s).adLen = s.adLen := rfl
@[simp] theorem recordCalls_dLen (cs : List PortCall) (s : State) : (recordCalls cs s).dLen = s.dLen := rfl
@[simp] theorem recordCalls_nonceLen (cs : List PortCall) (s : State) : (recordCalls cs s).nonceLen = s.nonceLen := rfl
@[simp] theorem recordCalls_mem (cs : List PortCall) (s : State) : (recordCalls cs s).mem = s.mem := rfl
@[simp] theorem recordCalls_otk (cs : List PortCall) (s : State) : (recordCalls cs s).otk = s.otk := rfl
@[simp] theorem recordCalls_etag (cs : List PortCall) (s : State) : (recordCalls cs s).etag = s.etag := rfl
@[simp] theorem recordCalls_kstage (cs : List PortCall) (s : State) : (recordCalls cs s).kstage = s.kstage := rfl
@[simp] theorem recordCalls_acc (cs : List PortCall) (s : State) : (recordCalls cs s).acc = s.acc := rfl
@[simp] theorem recordCalls_pendOpc (cs : List PortCall) (s : State) : (recordCalls cs s).pendOpc = s.pendOpc := rfl
@[simp] theorem recordCalls_keyLenIn (cs : List PortCall) (s : State) : (recordCalls cs s).keyLenIn = s.keyLenIn := rfl
@[simp] theorem recordCalls_env (cs : List PortCall) (s : State) : (recordCalls cs s).env = { s.env with calls := s.env.calls ++ cs } := rfl

/-! ### a write to DBUF (rule R10) -/

@[simp] theorem writeData_cfg (n : Nat) (bs : List Byte) (s : State) : (writeData n bs s).cfg = s.cfg := rfl
@[simp] theorem writeData_status (n : Nat) (bs : List Byte) (s : State) : (writeData n bs s).status = s.status := rfl
@[simp] theorem writeData_adLen (n : Nat) (bs : List Byte) (s : State) : (writeData n bs s).adLen = s.adLen := rfl
@[simp] theorem writeData_dLen (n : Nat) (bs : List Byte) (s : State) : (writeData n bs s).dLen = s.dLen := rfl
@[simp] theorem writeData_nonceLen (n : Nat) (bs : List Byte) (s : State) : (writeData n bs s).nonceLen = s.nonceLen := rfl
@[simp] theorem writeData_mem (n : Nat) (bs : List Byte) (s : State) : (writeData n bs s).mem = s.mem.writeBytes (dBase + n) bs := rfl
@[simp] theorem writeData_otk (n : Nat) (bs : List Byte) (s : State) : (writeData n bs s).otk = s.otk := rfl
@[simp] theorem writeData_etag (n : Nat) (bs : List Byte) (s : State) : (writeData n bs s).etag = s.etag := rfl
@[simp] theorem writeData_kstage (n : Nat) (bs : List Byte) (s : State) : (writeData n bs s).kstage = s.kstage := rfl
@[simp] theorem writeData_acc (n : Nat) (bs : List Byte) (s : State) : (writeData n bs s).acc = s.acc := rfl
@[simp] theorem writeData_pendOpc (n : Nat) (bs : List Byte) (s : State) : (writeData n bs s).pendOpc = s.pendOpc := rfl
@[simp] theorem writeData_keyLenIn (n : Nat) (bs : List Byte) (s : State) : (writeData n bs s).keyLenIn = s.keyLenIn := rfl
@[simp] theorem writeData_env (n : Nat) (bs : List Byte) (s : State) : (writeData n bs s).env = s.env := rfl

/-! ### taking an event -/

@[simp] theorem popEvent_cfg (rest : List Event) (s : State) : (popEvent rest s).cfg = s.cfg := rfl
@[simp] theorem popEvent_status (rest : List Event) (s : State) : (popEvent rest s).status = s.status := rfl
@[simp] theorem popEvent_adLen (rest : List Event) (s : State) : (popEvent rest s).adLen = s.adLen := rfl
@[simp] theorem popEvent_dLen (rest : List Event) (s : State) : (popEvent rest s).dLen = s.dLen := rfl
@[simp] theorem popEvent_nonceLen (rest : List Event) (s : State) : (popEvent rest s).nonceLen = s.nonceLen := rfl
@[simp] theorem popEvent_mem (rest : List Event) (s : State) : (popEvent rest s).mem = s.mem := rfl
@[simp] theorem popEvent_otk (rest : List Event) (s : State) : (popEvent rest s).otk = s.otk := rfl
@[simp] theorem popEvent_etag (rest : List Event) (s : State) : (popEvent rest s).etag = s.etag := rfl
@[simp] theorem popEvent_kstage (rest : List Event) (s : State) : (popEvent rest s).kstage = s.kstage := rfl
@[simp] theorem popEvent_acc (rest : List Event) (s : State) : (popEvent rest s).acc = s.acc := rfl
@[simp] theorem popEvent_pendOpc (rest : List Event) (s : State) : (popEvent rest s).pendOpc = s.pendOpc := rfl
@[simp] theorem popEvent_keyLenIn (rest : List Event) (s : State) : (popEvent rest s).keyLenIn = s.keyLenIn := rfl
@[simp] theorem popEvent_env (rest : List Event) (s : State) : (popEvent rest s).env = { s.env with sched := rest } := rfl

/-! ### another environment -/

@[simp] theorem State.setEnv_cfg (s : State) (e : Env) : (s.setEnv e).cfg = s.cfg := rfl
@[simp] theorem State.setEnv_status (s : State) (e : Env) : (s.setEnv e).status = s.status := rfl
@[simp] theorem State.setEnv_adLen (s : State) (e : Env) : (s.setEnv e).adLen = s.adLen := rfl
@[simp] theorem State.setEnv_dLen (s : State) (e : Env) : (s.setEnv e).dLen = s.dLen := rfl
@[simp] theorem State.setEnv_nonceLen (s : State) (e : Env) : (s.setEnv e).nonceLen = s.nonceLen := rfl
@[simp] theorem State.setEnv_mem (s : State) (e : Env) : (s.setEnv e).mem = s.mem := rfl
@[simp] theorem State.setEnv_otk (s : State) (e : Env) : (s.setEnv e).otk = s.otk := rfl
@[simp] theorem State.setEnv_etag (s : State) (e : Env) : (s.setEnv e).etag = s.etag := rfl
@[simp] theorem State.setEnv_kstage (s : State) (e : Env) : (s.setEnv e).kstage = s.kstage := rfl
@[simp] theorem State.setEnv_acc (s : State) (e : Env) : (s.setEnv e).acc = s.acc := rfl
@[simp] theorem State.setEnv_pendOpc (s : State) (e : Env) : (s.setEnv e).pendOpc = s.pendOpc := rfl
@[simp] theorem State.setEnv_keyLenIn (s : State) (e : Env) : (s.setEnv e).keyLenIn = s.keyLenIn := rfl
@[simp] theorem State.setEnv_env (s : State) (e : Env) : (s.setEnv e).env = e := rfl

end Sys2Proof.Machine
end

