-- ==== Sys2Proof/Laws/Ops.lean ====
section
/-! SUPPORT. One lemma per shared operation that says once what it can do: completion, checks, commands, bus accesses and
turns. -/

namespace Sys2Proof.Machine

/-! ### Completion -/

/-- `finish` in terms of the claims: AUTH_OK is 1 exactly for OPEN with OK (rule R64). -/
theorem finish_eq_completed (code : ErrCode) (s : State) :
    finish code s = completed code (s.pendOpc == 0x3#32 && code == .ok) s := rfl

theorem finish_eq_completed_of_ne (code : ErrCode) (s : State) (h : s.pendOpc ≠ 3#32) :
    finish code s = completed code false s := by
  rw [finish_eq_completed, beq_eq_false_iff_ne.mpr h, Bool.false_and]

theorem finish_eq_completed_of_error (code : ErrCode) (s : State) (h : code ≠ .ok) :
    finish code s = completed code false s := by
  rw [finish_eq_completed, beq_eq_false_iff_ne.mpr h, Bool.and_false]

theorem raiseInvalidNonceSize_eq (s : State) : raiseInvalidNonceSize s = faultEntered s := rfl

/-! ### The fields of a completed command and of the fault entry -/

@[simp] theorem completed_cfg (code : ErrCode) (ok : Bool) (s : State) : (completed code ok s).cfg = s.cfg := rfl
@[simp] theorem completed_status (code : ErrCode) (ok : Bool) (s : State) :
    (completed code ok s).status = { s.status with errcode := code, authOk := ok, busy := false, done := true } := rfl
@[simp] theorem completed_adLen (code : ErrCode) (ok : Bool) (s : State) :
    (completed code ok s).adLen = s.adLen := rfl
@[simp] theorem completed_dLen (code : ErrCode) (ok : Bool) (s : State) : (completed code ok s).dLen = s.dLen := rfl
@[simp] theorem completed_nonceLen (code : ErrCode) (ok : Bool) (s : State) :
    (completed code ok s).nonceLen = s.nonceLen := rfl
@[simp] theorem completed_mem (code : ErrCode) (ok : Bool) (s : State) : (completed code ok s).mem = s.mem := rfl
@[simp] theorem completed_otk (code : ErrCode) (ok : Bool) (s : State) : (completed code ok s).otk = s.otk := rfl
@[simp] theorem completed_etag (code : ErrCode) (ok : Bool) (s : State) : (completed code ok s).etag = s.etag := rfl
@[simp] theorem completed_kstage (code : ErrCode) (ok : Bool) (s : State) :
    (completed code ok s).kstage = s.kstage := rfl
@[simp] theorem completed_acc (code : ErrCode) (ok : Bool) (s : State) : (completed code ok s).acc = s.acc := rfl
@[simp] theorem completed_pendOpc (code : ErrCode) (ok : Bool) (s : State) :
    (completed code ok s).pendOpc = 0#32 := rfl
@[simp] theorem completed_keyLenIn (code : ErrCode) (ok : Bool) (s : State) :
    (completed code ok s).keyLenIn = s.keyLenIn := rfl
@[simp] theorem completed_env (code : ErrCode) (ok : Bool) (s : State) : (completed code ok s).env = s.env := rfl

@[simp] theorem faultEntered_cfg (s : State) : (faultEntered s).cfg = s.cfg := rfl
@[simp] theorem faultEntered_status (s : State) :
    (faultEntered s).status = { s.status with fault := true, errcode := .invalidNonceSize, authOk := false, busy := false, done := true } := rfl
@[simp] theorem faultEntered_adLen (s : State) : (faultEntered s).adLen = s.adLen := rfl
@[simp] theorem faultEntered_dLen (s : State) : (faultEntered s).dLen = s.dLen := rfl
@[simp] theorem faultEntered_nonceLen (s : State) : (faultEntered s).nonceLen = s.nonceLen := rfl
@[simp] theorem faultEntered_mem (s : State) : (faultEntered s).mem = s.mem := rfl
@[simp] theorem faultEntered_otk (s : State) : (faultEntered s).otk = s.otk := rfl
@[simp] theorem faultEntered_etag (s : State) : (faultEntered s).etag = s.etag := rfl
@[simp] theorem faultEntered_kstage (s : State) : (faultEntered s).kstage = s.kstage := rfl
@[simp] theorem faultEntered_acc (s : State) : (faultEntered s).acc = s.acc := rfl
@[simp] theorem faultEntered_pendOpc (s : State) : (faultEntered s).pendOpc = 0#32 := rfl
@[simp] theorem faultEntered_keyLenIn (s : State) : (faultEntered s).keyLenIn = s.keyLenIn := rfl
@[simp] theorem faultEntered_env (s : State) : (faultEntered s).env = s.env := rfl

/-! ### The checks of SEAL and OPEN: each lemma takes the checks before its own as hypotheses (rule R105) -/

theorem sealCommand_notInitialised (P : Config.Params) (s : State) (h : s.status.instValid = false) :
    sealCommand P s = finish .notInitialised s := by
  simp [sealCommand, h]

theorem sealCommand_badNonce (P : Config.Params) (s : State) (h : s.status.instValid = true)
    (hn : s.nonceLen.toNat ≠ nonceSize s) : sealCommand P s = raiseInvalidNonceSize s := by
  simp [sealCommand, h, hn]

theorem sealCommand_lengthError (P : Config.Params) (s : State) (h : NonceReady s)
    (hl : s.adLen.toNat > P.adCap ∨ s.dLen.toNat > P.dCap - 16) : sealCommand P s = finish .lengthError s := by
  unfold sealCommand tagBytes
  rw [if_neg (by simp [h.1]), if_neg (by simp [h.2]), if_pos hl]

theorem sealCommand_past_checks (P : Config.Params) (s : State) (h : NonceReady s) (ha : s.adLen.toNat ≤ P.adCap)
    (hd : s.dLen.toNat ≤ P.dCap - 16) :
    sealCommand P s = if collaboratorsAnswer s then sealData P s else s := by
  have hl : ¬(s.adLen.toNat > P.adCap ∨ s.dLen.toNat > P.dCap - tagBytes) := by unfold tagBytes; omega
  unfold sealCommand
  rw [if_neg (by simp [h.1]), if_neg (by simp [h.2]), if_neg hl]

theorem openCommand_notInitialised (P : Config.Params) (s : State) (h : s.status.instValid = false) :
    openCommand P s = finish .notInitialised s := by
  simp [openCommand, h]

theorem openCommand_badNonce (P : Config.Params) (s : State) (h : s.status.instValid = true)
    (hn : s.nonceLen.toNat ≠ nonceSize s) : openCommand P s = raiseInvalidNonceSize s := by
  simp [openCommand, h, hn]

theorem openCommand_lengthError (P : Config.Params) (s : State) (h : NonceReady s)
    (hl : s.adLen.toNat > P.adCap ∨ s.dLen.toNat > P.dCap) : openCommand P s = finish .lengthError s := by
  unfold openCommand
  rw [if_neg (by simp [h.1]), if_neg (by simp [h.2]), if_pos hl]

theorem openCommand_short (P : Config.Params) (s : State) (h : NonceReady s) (ha : s.adLen.toNat ≤ P.adCap)
    (hd : s.dLen.toNat ≤ P.dCap) (hs : s.dLen.toNat < 16) : openCommand P s = finish .authFailed s := by
  unfold openCommand
  rw [if_neg (by simp [h.1]), if_neg (by simp [h.2]), if_neg (by omega), if_pos (by unfold tagBytes; omega)]

theorem openCommand_past_checks (P : Config.Params) (s : State) (h : NonceReady s) (ha : s.adLen.toNat ≤ P.adCap)
    (hd : s.dLen.toNat ≤ P.dCap) (hs : 16 ≤ s.dLen.toNat) :
    openCommand P s = if collaboratorsAnswer s then openData P s else s := by
  unfold openCommand
  rw [if_neg (by simp [h.1]), if_neg (by simp [h.2]), if_neg (by omega), if_neg (by unfold tagBytes; omega)]

/-- Everything a SEAL can do, for a case split. -/
theorem sealCommand_cases (P : Config.Params) (s : State) :
    (∃ code, code ≠ .ok ∧ sealCommand P s = finish code s) ∨
    (s.status.instValid = true ∧ sealCommand P s = raiseInvalidNonceSize s) ∨
    (collaboratorsAnswer s = false ∧ sealCommand P s = s) ∨
    (NonceReady s ∧ s.adLen.toNat ≤ P.adCap ∧ s.dLen.toNat ≤ P.dCap - 16 ∧ collaboratorsAnswer s = true ∧
      sealCommand P s = sealData P s) := by
  by_cases h1 : s.status.instValid = true
  · by_cases h2 : s.nonceLen.toNat = nonceSize s
    · by_cases h3 : s.adLen.toNat ≤ P.adCap ∧ s.dLen.toNat ≤ P.dCap - 16
      · have := sealCommand_past_checks P s ⟨h1, h2⟩ h3.1 h3.2
        by_cases h4 : collaboratorsAnswer s = true
        · exact .inr (.inr (.inr ⟨⟨h1, h2⟩, h3.1, h3.2, h4, by rw [this, if_pos h4]⟩))
        · exact .inr (.inr (.inl ⟨by simpa using h4, by rw [this, if_neg h4]⟩))
      · exact .inl ⟨_, by simp, sealCommand_lengthError P s ⟨h1, h2⟩ (by omega)⟩
    · exact .inr (.inl ⟨h1, sealCommand_badNonce P s h1 h2⟩)
  · exact .inl ⟨_, by simp, sealCommand_notInitialised P s (by simpa using h1)⟩

/-- Everything an OPEN can do, for a case split. -/
theorem openCommand_cases (P : Config.Params) (s : State) :
    (∃ code, code ≠ .ok ∧ openCommand P s = finish code s) ∨
    (s.status.instValid = true ∧ openCommand P s = raiseInvalidNonceSize s) ∨
    (collaboratorsAnswer s = false ∧ openCommand P s = s) ∨
    (NonceReady s ∧ s.adLen.toNat ≤ P.adCap ∧ s.dLen.toNat ≤ P.dCap ∧ 16 ≤ s.dLen.toNat ∧
      collaboratorsAnswer s = true ∧ openCommand P s = openData P s) := by
  by_cases h1 : s.status.instValid = true
  · by_cases h2 : s.nonceLen.toNat = nonceSize s
    · by_cases h3 : s.adLen.toNat ≤ P.adCap ∧ s.dLen.toNat ≤ P.dCap
      · by_cases h5 : s.dLen.toNat < 16
        · exact .inl ⟨_, by simp, openCommand_short P s ⟨h1, h2⟩ h3.1 h3.2 h5⟩
        · have := openCommand_past_checks P s ⟨h1, h2⟩ h3.1 h3.2 (by omega)
          by_cases h4 : collaboratorsAnswer s = true
          · exact .inr (.inr (.inr ⟨⟨h1, h2⟩, h3.1, h3.2, by omega, h4, by rw [this, if_pos h4]⟩))
          · exact .inr (.inr (.inl ⟨by simpa using h4, by rw [this, if_neg h4]⟩))
      · exact .inl ⟨_, by simp, openCommand_lengthError P s ⟨h1, h2⟩ (by omega)⟩
    · exact .inr (.inl ⟨h1, openCommand_badNonce P s h1 h2⟩)
  · exact .inl ⟨_, by simp, openCommand_notInitialised P s (by simpa using h1)⟩

/-! ### Bus accesses -/

/-- A refused access returns ERROR and does nothing else (rules R41, R46). -/
theorem perform_error (P : Config.Params) (a : Access) (s : State) (h : a.erroneous P = true) :
    perform P a s = respond errorResponse s := by
  simp [perform, h]

theorem perform_read (P : Config.Params) (off : Offset) (size : Size) (s : State)
    (h : (Access.read off size).erroneous P = false) :
    perform P (.read off size) s = respond (okay (readData P s off.toNat size.bytes)) s := by
  simp [perform, h, okay]

theorem perform_write (P : Config.Params) (off : Offset) (size : Size) (v : Word) (s : State)
    (h : (Access.write off size v).erroneous P = false) :
    perform P (.write off size v) s = respond (okay 0#32) (writeAt P off.toNat size.bytes v s) := by
  simp [perform, h, okay]

/-- Everything an access can do: refuse, read, or write and return OKAY. -/
theorem perform_cases (P : Config.Params) (a : Access) (s : State) :
    (a.erroneous P = true ∧ perform P a s = respond errorResponse s) ∨
    (∃ off size, a = .read off size ∧ perform P a s = respond (okay (readData P s off.toNat size.bytes)) s) ∨
    (∃ off size v, a = .write off size v ∧ a.erroneous P = false ∧
      perform P a s = respond (okay 0#32) (writeAt P off.toNat size.bytes v s)) := by
  by_cases h : a.erroneous P = true
  · exact .inl ⟨h, perform_error P a s h⟩
  · have h : a.erroneous P = false := by simpa using h
    cases a with
    | read off size => exact .inr (.inl ⟨off, size, rfl, perform_read P off size s h⟩)
    | write off size v => exact .inr (.inr ⟨off, size, v, rfl, h, perform_write P off size v s h⟩)

/-- Read data byte by byte: the bytes at its offsets, zero above the access size (rule R43). -/
theorem readData_byte (P : Config.Params) (s : State) (off n k : Nat) (hn : n ≤ 4) (hk : k < 4) :
    (readData P s off n).extractLsb' (8 * k) 8 = if k < n then byteAt P s (off + k) else 0#8 := by
  induction n with
  | zero => simp [readData]
  | succ n ih =>
    apply BitVec.eq_of_getLsbD_eq
    intro i hi
    have ih := congrArg (fun b : Byte => b.getLsbD i) (ih (by omega))
    simp only [BitVec.getLsbD_extractLsb', hi, decide_true, Bool.true_and] at ih
    simp only [readData, BitVec.getLsbD_extractLsb', BitVec.getLsbD_or, BitVec.getLsbD_shiftLeft,
      BitVec.getLsbD_setWidth, hi, decide_true, Bool.true_and, ih]
    rcases Nat.lt_trichotomy k n with h | rfl | h
    · simp [h, show k < n + 1 by omega, show 8 * k + i < 8 * n by omega]
    · simp [show 8 * k + i < 32 by omega, show 8 * k + i - 8 * k = i by omega]
      omega
    · simp [show ¬k < n by omega, show ¬k < n + 1 by omega, BitVec.getLsbD_of_ge _ _ (show 8 ≤ 8 * k + i - 8 * n by omega)]

theorem heldNow_of_idle (P : Config.Params) (s : State) (a : Access) (h : s.status.busy = false) :
    heldNow P s a = false := by
  simp [heldNow, h]

theorem busy_of_heldNow (P : Config.Params) (s : State) (a : Access) (h : heldNow P s a = true) :
    s.status.busy = true := by
  simp only [heldNow, Bool.and_eq_true] at h
  exact h.1

/-- Everything a CMD write can do (rule R63). -/
theorem cmdWrite_cases (w : Word) (s : State) :
    (s.status.fault = true ∧ cmdWrite w s = s) ∨
    (s.status.fault = false ∧ s.status.busy = true ∧ cmdWrite w s = { s with status := s.status.overrun }) ∨
    (s.status.fault = false ∧ s.status.busy = false ∧ cmdWrite w s = accept w s) := by
  cases h : s.status.fault <;> cases h' : s.status.busy <;> simp [cmdWrite, h, h']

/-! ### Turns and steps -/

/-- Everything a step can be: a hardware reset; an event of the environment alone, or idling; the engine's turn; an access
left waiting at the port; an access performed. Each case says whether the step resets the block. -/
theorem turn_cases (s : State) :
    (∃ rest, s.env.sched = .hardReset :: rest ∧ resetsNow s = true ∧
      turn Config.params s = .moved (resetBlock (popEvent rest s))) ∨
    (∃ e : Env, resetsNow s = false ∧ served s = none ∧ e.port = s.env.port ∧
      turn Config.params s = .moved (s.setEnv e)) ∨
    (∃ e : Env, resetsNow s = false ∧ e.key = s.env.key ∧ e.ksAnswers = s.env.ksAnswers ∧
      e.macAnswers = s.env.macAnswers ∧ e.port = s.env.port ∧ e.calls = s.env.calls ∧ s.status.busy = true ∧
      turn Config.params s = .engine (s.setEnv e)) ∨
    (∃ (a : Access) (e : Env), resetsNow s = false ∧ served s = none ∧ heldNow Config.params s a = true ∧
      e.port = some a ∧ turn Config.params s = .moved (s.setEnv e)) ∨
    (∃ (a : Access) (e : Env), resetsNow s = isSoftReset a ∧ served s = some a ∧ heldNow Config.params s a = false ∧
      e.port = none ∧ turn Config.params s = .moved (perform Config.params a (s.setEnv e))) := by
  cases hs : s.env.sched with
  | nil =>
    cases hp : s.env.port with
    | some w =>
      cases hw : heldNow Config.params s w with
      | true =>
        have hb := busy_of_heldNow _ s w hw
        exact .inr (.inr (.inl ⟨s.env, by simp [resetsNow, served, hs, hp, hw], rfl, rfl, rfl, hp, rfl, hb, by
          simp [turn, hs, hp, portTurn, hw, engineTurn, hb, State.setEnv]⟩))
      | false =>
        exact .inr (.inr (.inr (.inr ⟨w, { s.env with port := none }, by simp [resetsNow, served, hs, hp, hw], by
          simp [served, hs, hp, hw], hw, rfl, by simp [turn, hs, hp, portTurn, hw, State.setEnv]⟩)))
    | none =>
      cases hb : s.status.busy with
      | true =>
        exact .inr (.inr (.inl ⟨s.env, by simp [resetsNow, served, hs, hp], rfl, rfl, rfl, hp, rfl, rfl, by
          simp [turn, hs, hp, engineTurn, hb, State.setEnv]⟩))
      | false =>
        exact .inr (.inl ⟨s.env, by simp [resetsNow, served, hs, hp], by simp [served, hs, hp], hp, by
          simp [turn, hs, hp, engineTurn, hb, State.setEnv]⟩)
  | cons ev rest =>
    cases ev with
    | host a =>
      cases hp : s.env.port with
      | some w =>
        cases hw : heldNow Config.params s w with
        | true =>
          have hb := busy_of_heldNow _ s w hw
          exact .inr (.inr (.inl ⟨s.env, by simp [resetsNow, served, hs, hp, hw], rfl, rfl, rfl, hp, rfl, hb, by
            simp [turn, hs, hp, portTurn, hw, engineTurn, hb, State.setEnv]⟩))
        | false =>
          refine .inr (.inr (.inr (.inr ⟨w, { s.env with port := none }, by simp [resetsNow, served, hs, hp, hw], by
            simp [served, hs, hp, hw], hw, rfl, by simp [turn, hs, hp, portTurn, hw, State.setEnv]⟩)))
      | none =>
        cases ha : heldNow Config.params s a with
        | true =>
          have ha' : heldNow Config.params (popEvent rest s) a = true := ha
          exact .inr (.inr (.inr (.inl ⟨a, { s.env with sched := rest, port := some a }, by
            simp [resetsNow, served, hs, hp, ha], by simp [served, hs, hp, ha], ha, rfl, by
            simp [turn, hs, hp, issue, ha']; rfl⟩)))
        | false =>
          have ha' : heldNow Config.params (popEvent rest s) a = false := ha
          exact .inr (.inr (.inr (.inr ⟨a, { s.env with sched := rest }, by simp [resetsNow, served, hs, hp, ha], by
            simp [served, hs, hp, ha], ha, hp, by
            have ht : turn Config.params s = .moved (issue Config.params a (popEvent rest s)) := by simp [turn, hs, hp]
            rw [ht, issue, ha']; rfl⟩)))
    | engine =>
      cases hb : s.status.busy with
      | true =>
        exact .inr (.inr (.inl ⟨{ s.env with sched := rest }, by simp [resetsNow, served, hs], rfl, rfl, rfl, rfl, rfl,
          rfl, by simp [turn, hs, engineTurn, hb, State.setEnv, popEvent]⟩))
      | false =>
        exact .inr (.inl ⟨{ s.env with sched := rest }, by simp [resetsNow, served, hs], by simp [served, hs], rfl, by
          simp [turn, hs, engineTurn, hb, State.setEnv, popEvent]⟩)
    | hardReset => exact .inl ⟨rest, rfl, by simp [resetsNow, hs], by simp [turn, hs]⟩
    | presentKey k =>
      exact .inr (.inl ⟨{ s.env with sched := rest, key := k }, by simp [resetsNow, served, hs], by
        simp [served, hs], rfl, by simp [turn, hs, State.setEnv]⟩)
    | ksAnswers b =>
      exact .inr (.inl ⟨{ s.env with sched := rest, ksAnswers := b }, by simp [resetsNow, served, hs], by
        simp [served, hs], rfl, by simp [turn, hs, State.setEnv]⟩)
    | macAnswers b =>
      exact .inr (.inl ⟨{ s.env with sched := rest, macAnswers := b }, by simp [resetsNow, served, hs], by
        simp [served, hs], rfl, by simp [turn, hs, State.setEnv]⟩)

/-- A step that is not the engine's. -/
theorem step_of_moved (s t : State) (h : turn Config.params s = .moved t) : step s = .next t := by
  simp [step, h]

/-- A step of the engine (rules R64, R65). -/
theorem step_of_engine (s t : State) (h : turn Config.params s = .engine t) :
    step s = exec (decodeWord t.pendOpc) t := by
  simp [step, h, latched]

/-- The step after `withFetchWord` is exec of that word's command, in the state acceptance leaves (log 12). -/
theorem step_withFetchWord (s : State) (nbits w : Nat) :
    step (s.withFetchWord nbits w) = exec (decodeWord (tableWord nbits w)) (accept (tableWord nbits w) s) := rfl

end Sys2Proof.Machine
end

