-- ==== Sys2Proof/Laws/Kxu.lean ====
section
/-! SUPPORT. A KXU pass goes through its positions one at a time, in order, whatever the lane count (rule R90's remark),
and touches nothing but OTK, KSTAGE, the output and the requests. -/

namespace Sys2Proof.Machine

/-- The KXU at one active position: its keystream byte enters its lane of KSTAGE and the multiplexer. -/
def posStep (P : Config.Params) (r : Pass) (u : Kxu) (p : Nat) : Kxu :=
  laneMux p (P.ks r.key r.mode r.nonce p) r.d
    { u with
      kstage := u.kstage.setIfInBounds (p % P.lanes) (P.ks r.key r.mode r.nonce p)
      calls := u.calls ++ [.ks r.mode r.nonce p] }

/-- One position, masked outside the pass's bounds. -/
def maskedStep (P : Config.Params) (r : Pass) (u : Kxu) (p : Nat) : Kxu :=
  if r.lo ≤ p ∧ p < r.hi then posStep P r u p else u

theorem foldl_maskedStep_of_masked (P : Config.Params) (r : Pass) (ps : List Nat) (u : Kxu)
    (h : ∀ p ∈ ps, ¬(r.lo ≤ p ∧ p < r.hi)) : ps.foldl (maskedStep P r) u = u := by
  induction ps generalizing u with
  | nil => rfl
  | cons p ps ih =>
    rw [List.foldl_cons, maskedStep, if_neg (h p (by simp))]
    exact ih u fun q hq => h q (by simp [hq])

theorem foldl_maskedStep_of_active (P : Config.Params) (r : Pass) (ps : List Nat) (u : Kxu)
    (h : ∀ p ∈ ps, r.lo ≤ p ∧ p < r.hi) : ps.foldl (maskedStep P r) u = ps.foldl (posStep P r) u := by
  induction ps generalizing u with
  | nil => rfl
  | cons p ps ih =>
    rw [List.foldl_cons, List.foldl_cons, maskedStep, if_pos (h p (by simp))]
    exact ih _ fun q hq => h q (by simp [hq])

/-- A beat is its W positions, masked. -/
theorem beat_eq_positions (P : Config.Params) (r : Pass) (u : Kxu) (b : Nat) :
    beat P r u b = (List.range' (P.lanes * b) P.lanes).foldl (maskedStep P r) u := by
  have hl : ∀ (l : List Nat), (∀ j ∈ l, j < P.lanes) → ∀ u : Kxu,
      l.foldl (laneStep P r b) u = (l.map (P.lanes * b + ·)).foldl (maskedStep P r) u := by
    intro l
    induction l with
    | nil => intros; rfl
    | cons j l ih =>
      intro hj u
      have hmod : (P.lanes * b + j) % P.lanes = j := by
        rw [Nat.mul_add_mod]; exact Nat.mod_eq_of_lt (hj j (by simp))
      have hstep : laneStep P r b u j = maskedStep P r u (P.lanes * b + j) := by
        simp only [laneStep, maskedStep, posStep, hmod]
      rw [List.foldl_cons, List.map_cons, List.foldl_cons, hstep]
      exact ih (fun i hi => hj i (by simp [hi])) _
  rw [beat, hl _ (fun j hj => List.mem_range.mp hj), List.range_eq_range', List.map_add_range']
  simp

theorem foldl_beat_eq_positions (P : Config.Params) (r : Pass) (b m : Nat) (u : Kxu) :
    (List.range' b m).foldl (beat P r) u = (List.range' (P.lanes * b) (P.lanes * m)).foldl (maskedStep P r) u := by
  induction m generalizing b u with
  | zero => simp
  | succ m ih =>
    rw [List.range'_succ, List.foldl_cons, ih, beat_eq_positions, ← List.foldl_append, Nat.mul_succ,
      List.range'_append_1, Nat.mul_succ, Nat.add_comm P.lanes]

/-- A pass is its active positions, in order (rules R90, R91). -/
theorem runPass_eq_positions (P : Config.Params) (r : Pass) (u : Kxu) (hW : 0 < P.lanes) :
    runPass P r u = (List.range' r.lo (r.hi - r.lo)).foldl (posStep P r) u := by
  rw [runPass, passBeats, foldl_beat_eq_positions]
  have hlo : P.lanes * (r.lo / P.lanes) ≤ r.lo := Nat.mul_div_le _ _
  generalize hb : r.lo / P.lanes = b at *
  generalize hc : (r.hi + P.lanes - 1) / P.lanes = c
  by_cases hlt : r.lo < r.hi
  · have hhi : r.hi ≤ P.lanes * c := by
      have := Nat.lt_mul_div_succ (r.hi + P.lanes - 1) hW
      rw [hc, Nat.mul_succ] at this; omega
    have hbc : b ≤ c := Nat.le_of_mul_le_mul_left (by omega : P.lanes * b ≤ P.lanes * c) hW
    have hlen : P.lanes * (c - b) =
        (r.lo - P.lanes * b) + ((r.hi - r.lo) + (P.lanes * c - r.hi)) := by
      rw [Nat.mul_sub]; omega
    have h1 : P.lanes * b + (r.lo - P.lanes * b) = r.lo := by omega
    have h2 : r.lo + (r.hi - r.lo) = r.hi := by omega
    rw [hlen, ← List.range'_append_1, List.foldl_append, h1, ← List.range'_append_1, List.foldl_append, h2,
      foldl_maskedStep_of_masked P r (List.range' (P.lanes * b) _) u (by simp; omega),
      foldl_maskedStep_of_active P r (List.range' r.lo _) u (by simp; omega),
      foldl_maskedStep_of_masked P r (List.range' r.hi _) _ (by simp; omega)]
  · rw [foldl_maskedStep_of_masked P r _ u (by omega), show r.hi - r.lo = 0 by omega]
    rfl

/-- A pass of the state: everything but OTK, KSTAGE and the record of calls is as before. -/
theorem kxuPass_state (P : Config.Params) (mode : NonceMode) (nonce d : List Byte) (lo hi : Nat) (s : State) :
    ∃ (o : Vector Byte 32) (k : Vector Byte 64) (cs : List PortCall),
      (kxuPass P mode nonce d lo hi s).1 =
        { s with otk := o, kstage := k, env := { s.env with calls := s.env.calls ++ cs } } :=
  ⟨_, _, _, rfl⟩

end Sys2Proof.Machine
end

