-- ==== Sys2Proof/Laws/PerInstr.lean ====
section
/-! SUPPORT. Per-instruction statements about the encoding: which fields a command's word has (rules R56, R57, R59). -/

namespace Sys2Proof.Laws.EncodingFields

/-- The word of a command has OPC in bits 3:0 and RSVD in bits 31:4, RSVD zero and OPC the opcode for the
five commands. -/
def Statement (i : Instr) : Prop :=
  i.wf = true →
    (rsvdField (encode i) =
      match i with
      | .nop => 0#28
      | .init => 0#28
      | .sealCmd => 0#28
      | .openCmd => 0#28
      | .zeroize => 0#28
      | .illegal rsvd _ => rsvd) ∧
    (opcField (encode i) =
      match i with
      | .nop => 0x0#4
      | .init => 0x1#4
      | .sealCmd => 0x2#4
      | .openCmd => 0x3#4
      | .zeroize => 0x4#4
      | .illegal _ opc => opc)

theorem nop : Statement .nop := fun _ => by decide

theorem init : Statement .init := fun _ => by decide

theorem sealCmd : Statement .sealCmd := fun _ => by decide

theorem openCmd : Statement .openCmd := fun _ => by decide

theorem zeroize : Statement .zeroize := fun _ => by decide

theorem illegal (rsvd : BitVec 28) (opc : BitVec 4) : Statement (.illegal rsvd opc) := by
  intro _
  constructor
  · exact BitVec.extractLsb'_append_eq_left
  · exact BitVec.extractLsb'_append_eq_right

end Sys2Proof.Laws.EncodingFields
end

