-- ==== Sys2Proof/Tests/Slice0.lean ====
section
/-! SUPPORT. Smoke tests of well-formedness, decode tests from words written out by hand, the spec's own vectors on its toy
platform T (95_test_vectors.md), and one witness for the hypotheses of each statement. -/

namespace Sys2Proof.Tests

open Sys2Proof.Machine

/-! ### Well-formedness and decoding (rules R56, R57, R59, R74) -/

theorem test_wf_refuses_a_command_word_as_illegal :
    (Instr.illegal 0#28 0#4).wf = false ∧ (Instr.illegal 0#28 2#4).wf = false ∧ (Instr.illegal 0#28 4#4).wf = false := by
  decide

theorem test_wf_accepts_commands_and_illegal_words :
    Instr.nop.wf ∧ Instr.init.wf ∧ Instr.sealCmd.wf ∧ Instr.openCmd.wf ∧ Instr.zeroize.wf ∧
      (Instr.illegal 0#28 5#4).wf ∧ (Instr.illegal 1#28 2#4).wf := by
  decide

/-- RSVD then OPC, bit by bit, from the opcode map. -/
theorem test_decode_commands_bit_by_bit :
    decodeWord 0b00000000000000000000000000000000#32 = .nop ∧
    decodeWord 0b00000000000000000000000000000001#32 = .init ∧
    decodeWord 0b00000000000000000000000000000010#32 = .sealCmd ∧
    decodeWord 0b00000000000000000000000000000011#32 = .openCmd ∧
    decodeWord 0b00000000000000000000000000000100#32 = .zeroize := by
  decide

/-- V-X1, V-X2, V-X3, V-X4: one word with OPC unassigned at each end, two with a bit of RSVD set. -/
theorem test_decode_illegal_bit_by_bit :
    decodeWord 0b00000000000000000000000000000101#32 = .illegal 0#28 5#4 ∧
    decodeWord 0b00000000000000000000000000001111#32 = .illegal 0#28 15#4 ∧
    decodeWord 0b00000000000000000000000000010010#32 = .illegal 1#28 2#4 ∧
    decodeWord 0b10000000000000000000000000000011#32 = .illegal 0x8000000#28 3#4 := by
  decide

/-- The byte at the lowest offset is the least significant (rule R43); three bytes are no command. -/
theorem test_decode_bytes :
    decode [0x12#8, 0x00#8, 0x00#8, 0x80#8, 0xAA#8] = .ok (.illegal 0x8000001#28 2#4, [0xAA#8]) ∧
    decode [0x01#8, 0x00#8, 0x00#8] = .error .truncated := by
  decide

theorem test_decode_table_words :
    decodeTableWord 32 4 = some .zeroize ∧ decodeTableWord 4 3 = some .openCmd ∧ decodeTableWord 40 0 = none := by
  decide

/-! ### The toy platform T (95_test_vectors.md, section 1) -/

/-- fold16: the XOR of the message bytes whose index is `k` mod 16. -/
def fold16 (k : Nat) : Nat → List Byte → Byte
  | _, [] => 0#8
  | i, b :: bs => (if i % 16 = k then b else 0#8) ^^^ fold16 k (i + 1) bs

/-- KS_T and MAC_T, with the default capacities and W = 8. -/
def toy : Config.Params where
  adCap := 4096
  dCap := 65536
  lanes := 8
  ks := fun _ _ nonce p => BitVec.ofNat 8 p ^^^ nonce.getD 0 0#8
  mac := fun otk m => Vector.ofFn fun k : Fin 16 => otk[k.val] ^^^ otk[k.val + 16] ^^^ fold16 k.val 0 m

theorem toy_legal : toy.Legal :=
  ⟨⟨1024, rfl⟩, by decide, by decide, ⟨16384, rfl⟩, by decide, by decide, by decide⟩

/-- 32 zero bytes, the key of the vectors. -/
def zeroKey : List Byte := List.replicate 32 0#8

/-- After reset, with a key presented. -/
def keyed (key : List Byte) : State := State.reset.setEnv { Env.start with key := key }

/-- A short instance bound, NONCE_LEN = 8, these lengths and buffer contents. -/
def bound (adLen dLen : Word) (mem : Memory) : State :=
  { keyed zeroKey with
    status := { State.reset.status with instValid := true, done := true }
    nonceLen := 8#8
    adLen := adLen
    dLen := dLen
    mem := mem }

/-- The command just accepted. -/
def running (i : Instr) (s : State) : State := accept (encode i) s

/-- The STATUS word after a step or a command. -/
def statusAfter : Host.Outcome State Fault Refusal → Option Word
  | .next t => some t.status.toWord
  | .fault _ => none
  | .refused _ => none

/-- DBUF's first `n` bytes. -/
def dbuf (n : Nat) (s : State) : List Byte := s.mem.readBytes dBase n

/-! ### Commands -/

/-- V-N1. -/
theorem test_nop_without_instance : statusAfter (exec .nop (running .nop State.reset)) = some 0x00000002#32 := by decide

/-- V-N2: AUTH_OK is cleared. -/
theorem test_nop_clears_auth_ok :
    statusAfter (exec .nop (running .nop
      { bound 0 3 [] with status := { (bound 0 3 []).status with authOk := true } })) = some 0x00000006#32 := by
  decide

/-- V-I2: the extended mode is bound, NONCE_SIZE is 24. -/
theorem test_init_extended :
    statusAfter (exec .init (running .init { keyed zeroKey with cfg := { ext := true, ie := false } })) =
      some 0x0000000E#32 := by
  decide

/-- V-I5: a key of 33 bytes drops the extended instance. -/
theorem test_init_bad_key_drops_the_instance :
    statusAfter (exec .init (running .init
      { keyed (0#8 :: zeroKey) with
        status := { State.reset.status with instValid := true, mode := .extended, done := true } })) =
      some 0x00000102#32 := by
  decide

/-- V-S6: the 19 bytes of the envelope. -/
theorem test_seal_envelope :
    dbuf 20 (sealCommand toy (running .sealCmd
      (bound 0 3 [(dBase, 1#8), (dBase + 1, 2#8), (dBase + 2, 3#8), (dBase + 19, 0x77#8)]))) =
      [0x41#8, 0x43#8, 0x41#8, 0x10#8, 0x10#8, 0x10#8, 0x10#8, 0x10#8, 0x10#8, 0x10#8, 0x10#8, 0x51#8, 0x53#8, 0x51#8,
        0x13#8, 0x10#8, 0x10#8, 0x10#8, 0x10#8, 0x77#8] := by
  decide +kernel

/-- V-F1: NONCE_LEN = 24 with a short instance is the fault entry. -/
theorem test_seal_bad_nonce_faults :
    statusAfter (exec .sealCmd (running .sealCmd { bound 0 3 [] with nonceLen := 24#8 })) = some 0x00000226#32 := by
  decide

/-- V-S6's envelope in DBUF, its last byte as given. -/
def envelope (last : Byte) : Memory :=
  Memory.writeBytes [] dBase
    [0x41#8, 0x43#8, 0x41#8, 0x10#8, 0x10#8, 0x10#8, 0x10#8, 0x10#8, 0x10#8, 0x10#8, 0x10#8, 0x51#8, 0x53#8, 0x51#8,
      0x13#8, 0x10#8, 0x10#8, 0x10#8, last]

/-- V-O1: STATUS, D_LEN, and the plaintext with zeros where the tag was. -/
theorem test_open_recovers :
    let t := openCommand toy (running .openCmd (bound 0 19 (envelope 0x10#8)))
    t.status.toWord = 0x00000016#32 ∧ t.dLen = 3#32 ∧ t.mem = [(dBase, 1#8), (dBase + 1, 2#8), (dBase + 2, 3#8)] := by
  decide +kernel

/-- V-O4: the last tag byte differs; nothing is released. -/
theorem test_open_rejects :
    let t := openCommand toy (running .openCmd (bound 0 19 (envelope 0x11#8)))
    t.status.toWord = 0x00000306#32 ∧ t.dLen = 19#32 ∧ t.mem = envelope 0x11#8 := by
  decide +kernel

/-- V-Z1: all three buffers and lengths, the instance kept. -/
theorem test_zeroize_clears :
    let t := zeroizeCommand toy (running .zeroize
      (bound 1 28 [(0x117, 1#8), (adBase, 2#8), (adBase + 4095, 3#8), (dBase, 8#8), (dBase + 65535, 4#8)]))
    t.status.toWord = 0x00000006#32 ∧ t.mem = [] ∧ t.adLen = 0#32 ∧ t.dLen = 0#32 ∧ t.nonceLen = 0#8 := by
  decide +kernel

/-- V-X3. -/
theorem test_illegal_word :
    statusAfter (exec (.illegal 1#28 2#4) (running (.illegal 1#28 2#4) (bound 0 3 []))) = some 0x00000506#32 := by
  decide

/-- V-X5: illegal comes before the instance check. -/
theorem test_illegal_without_instance :
    statusAfter (exec (.illegal 0#28 7#4) (running (.illegal 0#28 7#4) State.reset)) = some 0x00000502#32 := by
  decide

/-! ### Units -/

/-- V-LE6. -/
theorem test_le64 : (le64 65520#64).toList = [0xF0#8, 0xFF#8, 0#8, 0#8, 0#8, 0#8, 0#8, 0#8] := by decide

/-- V-FR2, from the sequencer. -/
theorem test_frame :
    macMessage [0x41#8, 0x44#8] [] = [0x41#8, 0x44#8, 0x02#8] ++ List.replicate 15 0#8 := by
  decide +kernel

/-- V-T5 and V-T6: differences that an XOR or a sum would cancel. -/
theorem test_comparator_does_not_cancel :
    tcmpAcc (Vector.replicate 16 0#8) ((Vector.replicate 16 0#8).set 0 1#8 |>.set 1 1#8) = 0x01#8 ∧
    tcmpAcc (Vector.replicate 16 0#8) ((Vector.replicate 16 0#8).set 0 0x80#8 |>.set 1 0x80#8) = 0x80#8 := by
  decide +kernel

/-- V-K6 and V-K10: the same output for W = 1, 8 and 64. -/
theorem test_kxu_lanes :
    ∀ w ∈ [1, 8, 64],
      (kxuRun { toy with lanes := w } .short [0x5A#8] [0x48#8, 0x65#8, 0x6C#8] (keyed zeroKey)).2 =
        [0x52#8, 0x7E#8, 0x74#8] := by
  decide +kernel

/-! ### Bus, reset and steps -/

/-- V-M3: `rd16 0x002` is the high half of ID. -/
theorem test_read_half_of_id :
    (perform toy (.read 0x002#23 .half) State.reset).env.response = some (okay 0x4146#32) := by
  decide +kernel

/-- V-M2: the lowest and the highest byte of ID. -/
theorem test_read_bytes_of_id :
    (perform toy (.read 0x000#23 .byte) State.reset).env.response = some (okay 0x01#32) ∧
    (perform toy (.read 0x003#23 .byte) State.reset).env.response = some (okay 0x41#32) := by
  decide +kernel

/-- V-M6: a word in DBUF, its high half read back. -/
theorem test_buffer_bytes_are_little_endian :
    (perform toy (.read 0x400002#23 .half)
      (perform toy (.write 0x400000#23 .word 0x44332211#32) State.reset)).env.response = some (okay 0x4433#32) := by
  decide +kernel

/-- V-M7: the first byte past ADBUF. -/
theorem test_read_past_adbuf :
    (perform toy (.read 0x101000#23 .word) State.reset).env.response = some { okay := false, data := 0#32 } := by
  decide +kernel

/-- V-M12. -/
theorem test_narrow_write_of_d_len :
    (perform toy (.write 0x018#23 .half 0x1234#32) { State.reset with dLen := 0xAABBCCDD#32 }).dLen = 0xAABB1234#32 := by
  decide +kernel

/-- V-M13: an 8-bit write of 2 to STATUS clears DONE alone. -/
theorem test_status_write_clears_done :
    (perform toy (.write 0x00C#23 .byte 0x02#32)
      { State.reset with
        status := { State.reset.status with done := true, instValid := true, bovr := true } }).status.toWord =
      0x44#32 := by
  decide +kernel

/-- V-M15: the reserved bits of CFG read zero. -/
theorem test_cfg_reserved_bits :
    (perform toy (.read 0x004#23 .word)
      (perform toy (.write 0x004#23 .word 0xFFFFFFFF#32) State.reset)).env.response = some (okay 0x00000003#32) := by
  decide +kernel

/-- V-B1: a CMD write while a SEAL is in progress sets BOVR and nothing else. -/
theorem test_overrun :
    statusAfter (step ((running .sealCmd (bound 0 3 [])).setEnv
      { Env.start with sched := [.host (.write 0x008#23 .word 0#32)] })) = some 0x00000045#32 := by
  decide +kernel

/-- V-B3: a read of D_LEN while BUSY waits, with no response. -/
theorem test_held_read_waits :
    ∃ t, step ((running .sealCmd (bound 0 3 [])).setEnv
      { Env.start with sched := [.host (.read 0x018#23 .word)] }) = .next t ∧
      t.env.port = some (.read 0x018#23 .word) ∧ t.env.response = none ∧ t.status.busy = true :=
  ⟨_, rfl, rfl, rfl, rfl⟩

/-- A misaligned read of D_LEN while BUSY waits too, as rule R117 exempts none; one of ID gets ERROR at once (R46, V-M4). -/
theorem test_misaligned_access_while_busy :
    (∃ t, step ((running .sealCmd (bound 0 3 [])).setEnv
      { Env.start with sched := [.host (.read 0x01A#23 .word)] }) = .next t ∧
      t.env.port = some (.read 0x01A#23 .word) ∧ t.env.response = none ∧ t.status.busy = true) ∧
    (∃ t, step ((running .sealCmd (bound 0 3 [])).setEnv
      { Env.start with sched := [.host (.read 0x002#23 .word)] }) = .next t ∧
      t.env.port = none ∧ t.env.response = some { okay := false, data := 0#32 } ∧ t.status.busy = true) :=
  ⟨⟨_, rfl, rfl, rfl, rfl⟩, _, rfl, rfl, rfl, rfl⟩

/-- V-B5: a soft reset abandons the command in progress. -/
theorem test_soft_reset_while_busy :
    statusAfter (step ((running .sealCmd (bound 0 3 [])).setEnv
      { Env.start with sched := [.host (.write 0x010#23 .word 1#32)] })) = some 0x00000000#32 := by
  decide +kernel

/-- `withFetchWord` makes the next step run the word (log 12), as the first command after reset. -/
theorem test_first_step_after_reset :
    statusAfter (step (State.reset.withFetchWord 32 0)) = some 0x00000002#32 ∧
    statusAfter (step (State.reset.withFetchWord 32 2)) = some 0x00000402#32 ∧
    statusAfter (step (State.reset.withFetchWord 32 0x12)) = some 0x00000502#32 := by
  decide +kernel

/-! ### Witnesses: for each statement with hypotheses, a state and operands that meet them together, clause by clause, at
the boundaries of their ranges -/

theorem adCap_bounds : 4 ≤ Config.params.adCap ∧ Config.params.adCap ≤ 2 ^ 20 := by
  have h : Config.params.adCap = 4 * (Config.adCapChoice.toNat + 1) := rfl
  have := Config.adCapChoice.isLt
  omega

theorem dCap_bounds : 16 ≤ Config.params.dCap ∧ Config.params.dCap ≤ 2 ^ 22 := by
  have h : Config.params.dCap = 4 * (Config.dCapChoice % (2 ^ 20 - 3) + 4) := rfl
  have := Nat.mod_lt Config.dCapChoice (show 2 ^ 20 - 3 > 0 by decide)
  omega

theorem toNat_ofNat_small (n : Nat) (h : n ≤ 2 ^ 22 + 16) : (BitVec.ofNat 32 n).toNat = n := by
  rw [BitVec.toNat_ofNat]
  omega

/-- A step always answers a next state. -/
theorem step_answers (s : State) : SafeStep s := by
  unfold SafeStep step
  split
  · rename_i t _
    cases latched t <;> exact ⟨_, rfl⟩
  · exact ⟨_, rfl⟩

/-! Encoding and the step -/

theorem test_witness_LatchedWordIsDecodedByFields :
    (0x12#32).extractLsb' 4 28 ≠ 0#28 ∧
    (∀ k < 16, (BitVec.ofNat 32 k).extractLsb' 4 28 = 0#28 ∧ (BitVec.ofNat 32 k).extractLsb' 0 4 = BitVec.ofNat 4 k) := by
  decide

theorem test_witness_DecodingTheEncodingGivesTheCommand :
    ∀ i ∈ [Instr.nop, .init, .sealCmd, .openCmd, .zeroize, .illegal 0#28 5#4, .illegal 0#28 15#4, .illegal 1#28 0#4],
      i.wf = true := by
  decide

/-- The three ways the engine's turn comes. -/
theorem test_witness_StepRunsTheLatchedCommand :
    (running .init (keyed zeroKey)).status.busy = true ∧ decodeWord (running .init (keyed zeroKey)).pendOpc = .init ∧
    (running .init (keyed zeroKey)).env.sched = [] ∧ (running .init (keyed zeroKey)).env.port = none ∧
    ((running .init (keyed zeroKey)).setEnv { Env.start with sched := [.engine] }).env.sched = [.engine] ∧
    heldNow Config.params
      ((running .init (keyed zeroKey)).setEnv { Env.start with port := some (.read 0x018#23 .word) })
      (.read 0x018#23 .word) = true :=
  ⟨rfl, by decide, rfl, rfl, rfl, by decide +kernel⟩

/-! Commands -/

theorem test_witness_NopCompletesOk : Latched .nop (running .nop State.reset) := rfl

/-- Key lengths 32, 31 and 33. -/
theorem test_witness_InitBindsOrDropsTheInstance :
    Latched .init (running .init (keyed zeroKey)) ∧ (running .init (keyed zeroKey)).keyLenIn = 32#16 ∧
    (running .init (keyed (zeroKey.drop 1))).keyLenIn = 31#16 ∧
    (running .init (keyed (0#8 :: zeroKey))).keyLenIn = 33#16 := by
  unfold Latched
  decide +kernel

/-- Empty inputs, and both lengths at their largest. -/
theorem test_witness_SealProducesTheEnvelope :
    (Latched .sealCmd (running .sealCmd (bound 0 0 [])) ∧ SealReady (running .sealCmd (bound 0 0 []))) ∧
    SealReady (running .sealCmd
      (bound (BitVec.ofNat 32 Config.params.adCap) (BitVec.ofNat 32 (Config.params.dCap - 16)) [])) := by
  have ha := adCap_bounds
  have hd := dCap_bounds
  refine ⟨⟨rfl, ⟨rfl, rfl⟩, Nat.zero_le _, Nat.zero_le _, rfl⟩, ⟨rfl, rfl⟩, ?_, ?_, rfl⟩
  · exact Nat.le_of_eq (toNat_ofNat_small _ (by omega))
  · exact Nat.le_of_eq (toNat_ofNat_small _ (by omega))

/-- No instance; NONCE_LEN one off on both sides; each length one past its limit. -/
theorem test_witness_SealAndOpenErrorsInTheirOrder :
    (∀ i ∈ [Instr.sealCmd, .openCmd], Latched i (running i State.reset) ∧
      (running i State.reset).status.instValid = false) ∧
    (∀ k ∈ [7#8, 9#8], { bound 0 0 [] with nonceLen := k }.nonceLen.toNat ≠ nonceSize (bound 0 0 [])) ∧
    NonceReady (bound (BitVec.ofNat 32 (Config.params.adCap + 1)) 0 []) ∧
    (bound (BitVec.ofNat 32 (Config.params.adCap + 1)) 0 []).adLen.toNat > Config.params.adCap ∧
    (bound 0 (BitVec.ofNat 32 (Config.params.dCap - 15)) []).dLen.toNat + 16 > Config.params.dCap ∧
    (bound 0 (BitVec.ofNat 32 (Config.params.dCap + 1)) []).dLen.toNat > Config.params.dCap := by
  have ha := adCap_bounds
  have hd := dCap_bounds
  have h1 := toNat_ofNat_small (Config.params.adCap + 1) (by omega)
  have h2 := toNat_ofNat_small (Config.params.dCap - 15) (by omega)
  have h3 := toNat_ofNat_small (Config.params.dCap + 1) (by omega)
  refine ⟨fun i _ => ⟨rfl, rfl⟩, by decide, ⟨rfl, rfl⟩, ?_, ?_, ?_⟩
  · show (BitVec.ofNat 32 (Config.params.adCap + 1)).toNat > Config.params.adCap
    omega
  · show (BitVec.ofNat 32 (Config.params.dCap - 15)).toNat + 16 > Config.params.dCap
    omega
  · show (BitVec.ofNat 32 (Config.params.dCap + 1)).toNat > Config.params.dCap
    omega

/-- The tag of `n` zero bytes of ciphertext, no associated data, under the zero key and nonce. -/
def goodTag (n : Nat) : Vector Byte 16 :=
  Config.params.mac (Vector.ofFn fun p : Fin 32 => Config.params.ks zeroKey .short (List.replicate 8 0#8) p.val)
    (frame [] (List.replicate n 0#8))

/-- An OPEN of `n` zero bytes of ciphertext followed by this tag. -/
def opening (n : Nat) (tag : List Byte) : State :=
  running .openCmd (bound 0 (BitVec.ofNat 32 (n + 16)) (Memory.writeBytes [] (dBase + n) tag))

theorem opening_ready (n : Nat) (tag : List Byte) (h : n + 16 ≤ Config.params.dCap) : OpenReady (opening n tag) := by
  have hd := dCap_bounds
  have hl : (opening n tag).dLen.toNat = n + 16 := toNat_ofNat_small (n + 16) (by omega)
  exact ⟨⟨rfl, rfl⟩, Nat.zero_le _, by omega, by omega, rfl⟩

theorem opening_tag (n : Nat) (tag : List Byte) (h : n + 16 ≤ Config.params.dCap) :
    openTag (opening n tag) = goodTag n := by
  have hd := dCap_bounds
  have hl : (opening n tag).dLen.toNat - tagBytes = n := by
    have : (opening n tag).dLen.toNat = n + 16 := toNat_ofNat_small (n + 16) (by omega)
    rw [this]; rfl
  have hz : ∀ a, a < dBase + n → (opening n tag).mem.read a = 0#8 := by
    intro a ha
    have := Memory.read_writeBytes [] (dBase + n) tag a
    rw [if_neg (by omega)] at this
    exact this
  have hn : nonceOperand (opening n tag) = List.replicate 8 0#8 := by
    refine List.ext_getElem (by simp [nonceOperand, Memory.readBytes]; rfl) fun i h1 h2 => ?_
    simp only [nonceOperand, Memory.readBytes, List.getElem_map, List.getElem_range, List.getElem_replicate]
    refine hz _ ?_
    simp at h2
    simp only [nonceBase, dBase]
    omega
  have hc : openCiphertext (opening n tag) = List.replicate n 0#8 := by
    rw [openCiphertext, hl]
    refine List.ext_getElem (by simp [dataOperand, Memory.readBytes]) fun i h1 h2 => ?_
    simp only [dataOperand, Memory.readBytes, List.getElem_map, List.getElem_range, List.getElem_replicate]
    refine hz _ ?_
    simp at h2
    omega
  have ha : adOperand (opening n tag) = [] := rfl
  rw [openTag, hc, ha, oneTimeKey]
  simp only [ksByte, hn]
  rfl

theorem opening_received (n : Nat) (tag : Vector Byte 16) (h : n + 16 ≤ Config.params.dCap) :
    receivedTag (opening n tag.toList) = tag := by
  have hd := dCap_bounds
  have hl : (opening n tag.toList).dLen.toNat - tagBytes = n := by
    have : (opening n tag.toList).dLen.toNat = n + 16 := toNat_ofNat_small (n + 16) (by omega)
    rw [this]; rfl
  rw [receivedTag, hl]
  refine Vector.ext fun i hi => ?_
  have := Memory.read_writeBytes [] (dBase + n) tag.toList (dBase + n + i)
  rw [if_pos (by simp; omega)] at this
  rw [tagOperand, Vector.getElem_ofFn]
  refine this.trans ?_
  simp [hi]

theorem flipped_ne (c : Byte) (hc : c ≠ 0#8) (tag : Vector Byte 16) : tag ≠ tag.map (· ^^^ c) := by
  intro h
  have h0 := congrArg (fun v : Vector Byte 16 => tag[0] ^^^ v[0]) h
  simp only [Vector.getElem_map, BitVec.xor_self, ← BitVec.xor_assoc, BitVec.zero_xor] at h0
  exact hc h0.symm

/-- The shortest and the longest envelope. -/
theorem test_witness_OpenRecoversThePlaintext :
    ∀ n, n = 0 ∨ n = Config.params.dCap - 16 →
      Latched .openCmd (opening n (goodTag n).toList) ∧ OpenReady (opening n (goodTag n).toList) ∧
      openTag (opening n (goodTag n).toList) = receivedTag (opening n (goodTag n).toList) := by
  intro n hn
  have hd := dCap_bounds
  have hle : n + 16 ≤ Config.params.dCap := by omega
  exact ⟨rfl, opening_ready n _ hle, by rw [opening_tag n _ hle, opening_received n _ hle]⟩

theorem test_witness_OpenRejectsADifferentTag :
    ∀ n, n = 0 ∨ n = Config.params.dCap - 16 →
      Latched .openCmd (opening n ((goodTag n).map (· ^^^ 1#8)).toList) ∧
      OpenReady (opening n ((goodTag n).map (· ^^^ 1#8)).toList) ∧
      openTag (opening n ((goodTag n).map (· ^^^ 1#8)).toList) ≠
        receivedTag (opening n ((goodTag n).map (· ^^^ 1#8)).toList) := by
  intro n hn
  have hd := dCap_bounds
  have hle : n + 16 ≤ Config.params.dCap := by omega
  refine ⟨rfl, opening_ready n _ hle, ?_⟩
  rw [opening_tag n _ hle, opening_received n _ hle]
  exact flipped_ne 1#8 (by decide) _

/-- Two states that differ in the received tag alone, and both mismatch. -/
theorem test_witness_AuthFailureRevealsNothing :
    let s := opening 0 ((goodTag 0).map (· ^^^ 1#8)).toList
    let m := (opening 0 ((goodTag 0).map (· ^^^ 2#8)).toList).mem
    Latched .openCmd s ∧ OpenReady s ∧ openTag s ≠ receivedTag s ∧
    (∀ a, a < dBase + (s.dLen.toNat - 16) ∨ dBase + s.dLen.toNat ≤ a → m.read a = s.mem.read a) ∧
    openTag s ≠ receivedTag { s with mem := m } ∧ ∃ t, exec .openCmd s = .next t := by
  intro s m
  have hd := dCap_bounds
  have hs := opening_tag 0 ((goodTag 0).map (· ^^^ 1#8)).toList (by omega)
  have h1 := opening_received 0 ((goodTag 0).map (· ^^^ 1#8)) (by omega)
  have h2 := opening_received 0 ((goodTag 0).map (· ^^^ 2#8)) (by omega)
  refine ⟨rfl, opening_ready 0 _ (by omega), ?_, ?_, ?_, _, rfl⟩
  · show openTag (opening 0 _) ≠ receivedTag (opening 0 _)
    rw [hs, h1]
    exact flipped_ne 1#8 (by decide) _
  · intro a ha
    have ha : a < dBase ∨ dBase + 16 ≤ a := ha
    have e1 : s.mem.read a = _ := Memory.read_writeBytes [] dBase ((goodTag 0).map (· ^^^ 1#8)).toList a
    have e2 : m.read a = _ := Memory.read_writeBytes [] dBase ((goodTag 0).map (· ^^^ 2#8)).toList a
    rw [e1, e2, if_neg (by simp; omega), if_neg (by simp; omega)]
  · show openTag (opening 0 _) ≠ receivedTag (opening 0 ((goodTag 0).map (· ^^^ 2#8)).toList)
    rw [hs, h2]
    exact flipped_ne 2#8 (by decide) _

/-- D_LEN = 0 and D_LEN = 15. -/
theorem test_witness_ShortOpenFailsAuthentication :
    ∀ d ∈ [0#32, 15#32], Latched .openCmd (running .openCmd (bound 0 d [])) ∧
      NonceReady (running .openCmd (bound 0 d [])) ∧
      (running .openCmd (bound 0 d [])).adLen.toNat ≤ Config.params.adCap ∧
      (running .openCmd (bound 0 d [])).dLen.toNat < 16 := by
  intro d hd
  refine ⟨rfl, ⟨rfl, rfl⟩, Nat.zero_le _, ?_⟩
  simp only [List.mem_cons, List.not_mem_nil, or_false] at hd
  rcases hd with rfl | rfl <;> decide

theorem test_witness_ZeroizeClearsTheBuffers : Latched .zeroize (running .zeroize State.reset) := rfl

theorem test_witness_IllegalWordCompletesWithItsError :
    ∀ o ∈ [5#4, 15#4], (Instr.illegal 0#28 o).wf = true ∧
      Latched (.illegal 0#28 o) (running (.illegal 0#28 o) State.reset) := by
  unfold Latched
  decide

/-- Either collaborator silent; the shortest inputs. -/
theorem test_witness_CommandsWaitForTheirCollaborators :
    ∀ b : Bool, let s := (bound 0 16 []).setEnv { Env.start with ksAnswers := b, macAnswers := !b }
      NonceReady s ∧ s.adLen.toNat ≤ Config.params.adCap ∧ (s.env.ksAnswers = false ∨ s.env.macAnswers = false) ∧
      16 ≤ s.dLen.toNat ∧ s.dLen.toNat ≤ Config.params.dCap ∧
      (bound 0 0 []).dLen.toNat + 16 ≤ Config.params.dCap := by
  intro b
  have hd := dCap_bounds
  refine ⟨⟨rfl, rfl⟩, Nat.zero_le _, ?_, by simp [bound], hd.1, ?_⟩
  · cases b <;> simp
  · exact hd.1

theorem test_witness_OpenAfterSealGivesThePlaintextBack :
    Latched .sealCmd (running .sealCmd (bound 0 0 [(dBase, 7#8)])) ∧
    SealReady (running .sealCmd (bound 0 0 [(dBase, 7#8)])) :=
  ⟨rfl, ⟨rfl, rfl⟩, Nat.zero_le _, Nat.zero_le _, rfl⟩

/-- FAULT; BUSY; idle; a command that ends; both resets. -/
theorem test_witness_TheFirstConditionDecides :
    (faultEntered (bound 0 0 [])).status.fault = true ∧
    ((running .nop State.reset).status.fault = false ∧ (running .nop State.reset).status.busy = true) ∧
    (State.reset.status.fault = false ∧ State.reset.status.busy = false) ∧
    (collaboratorsAnswer (running .init State.reset) = true ∧
      ∃ t, exec (decodeWord (running .init State.reset).pendOpc) (running .init State.reset) = .next t) ∧
    (State.reset.setEnv { Env.start with sched := [.hardReset] }).env.sched = [.hardReset] ∧ (1#32).getLsbD 0 = true :=
  ⟨rfl, ⟨rfl, rfl⟩, ⟨rfl, rfl⟩, ⟨rfl, _, rfl⟩, rfl, rfl⟩

/-- Every command answers a next state. -/
theorem test_witness_CommandsLeaveTheirInputs :
    ∀ i ∈ [Instr.nop, .init, .sealCmd, .openCmd, .zeroize, .illegal 0#28 5#4],
      ∃ t, exec i (running i (bound 0 16 [])) = .next t := by
  intro i _
  cases i <;> exact ⟨_, rfl⟩

theorem test_witness_RequestedPositionsStayBelowTheCap :
    ∃ t, exec .sealCmd (running .sealCmd (bound 0 0 [])) = .next t := ⟨_, rfl⟩

/-- A SEAL and an OPEN past their checks, the SEAL with a silent collaborator (log 9), and a NOP. -/
theorem test_witness_MacIsCalledExactlyOnce :
    (SealReady (running .sealCmd (bound 0 0 [])) ∧ ∃ t, exec .sealCmd (running .sealCmd (bound 0 0 [])) = .next t) ∧
    (OpenReady (opening 0 []) ∧ ∃ t, exec .openCmd (opening 0 []) = .next t) ∧
    (let s := (running .sealCmd (bound 0 0 [])).setEnv { Env.start with macAnswers := false };
      ¬((Instr.sealCmd = .sealCmd ∧ SealReady s) ∨ (Instr.sealCmd = .openCmd ∧ OpenReady s)) ∧
        ∃ t, exec .sealCmd s = .next t) ∧
    ∃ t, exec .nop State.reset = .next t := by
  have hd := dCap_bounds
  refine ⟨⟨⟨⟨rfl, rfl⟩, Nat.zero_le _, Nat.zero_le _, rfl⟩, _, rfl⟩, ⟨opening_ready 0 [] (by omega), _, rfl⟩, ⟨?_, _, rfl⟩,
    _, rfl⟩
  rintro (⟨_, h⟩ | ⟨h, _⟩)
  · exact Bool.noConfusion (show false = true from h.2.2.2)
  · cases h

/-! Units -/

theorem test_witness_LengthEncoderIsLittleEndian : 4 ≤ (4 : Fin 8).val ∧ 4 ≤ (7 : Fin 8).val := by decide

theorem test_witness_FrameByteByByte : 0 < [1#8].length ∧ 1 < [1#8, 2#8].length := by decide

theorem test_witness_ComparatorIsExact :
    (tcmp (Vector.replicate 16 0#8) State.reset).2 = true ∧ (tcmp (Vector.replicate 16 7#8) State.reset).2 = false := by
  decide +kernel

/-- Positions 0, 31, 32, 63 and 64: where the clauses meet. -/
theorem test_witness_MultiplexerRoutesByPosition :
    (0 < 32 ∧ 31 < 32) ∧ (32 ≤ 32 ∧ 63 < 64) ∧
    (64 ≤ 64 ∧ 64 - 64 < (Kxu.mk (Vector.replicate 32 0#8) (Vector.replicate 64 0#8) [0#8] []).out.length) := by
  decide

theorem test_witness_KxuRunResult : toy.Legal := toy_legal

theorem test_witness_KxuKeyResult : { toy with lanes := 1 }.Legal :=
  ⟨toy_legal.1, toy_legal.2, toy_legal.3, toy_legal.4, toy_legal.5, toy_legal.6, by decide⟩

theorem test_witness_KxuDataResult : { toy with lanes := 64 }.Legal ∧ ([] : List Byte) = [] :=
  ⟨⟨toy_legal.1, toy_legal.2, toy_legal.3, toy_legal.4, toy_legal.5, toy_legal.6, by decide⟩, rfl⟩

theorem test_witness_KxuDataUndoesKxuRun :
    toy.Legal ∧ (bound 0 0 []).env.key = (keyed zeroKey).env.key := ⟨toy_legal, rfl⟩

theorem test_witness_LaneCountHasNoEffect : toy.Legal ∧ ∀ w ∈ [1, 64], w ∈ [1, 2, 4, 8, 16, 32, 64] :=
  ⟨toy_legal, by decide⟩

/-- A keystream that differs from position 32 to 63; one that differs below 64. -/
theorem test_witness_KeystreamBelow64NeverReachesData :
    toy.Legal ∧
    (∀ (key : List Byte) (mode : NonceMode) (nonce : List Byte) (p : Nat), p < 32 ∨ 64 ≤ p →
      (if 32 ≤ p ∧ p < 64 then 0xEE#8 else toy.ks key mode nonce p) = toy.ks key mode nonce p) ∧
    (∀ (key : List Byte) (mode : NonceMode) (nonce : List Byte) (p : Nat), 64 ≤ p →
      (if p < 64 then 0xEE#8 else toy.ks key mode nonce p) = toy.ks key mode nonce p) :=
  ⟨toy_legal, fun _ _ _ p h => if_neg (by omega), fun _ _ _ p h => if_neg (by omega)⟩

/-! STATUS, interrupt, FAULT -/

theorem test_witness_StatusWriteClearsDoneAndBovr :
    ∀ c ∈ [(0x00C#23, Size.word), (0x00D#23, Size.byte), (0x00E#23, Size.half), (0x00F#23, Size.byte)],
      0x00C ≤ c.1.toNat ∧ c.1.toNat ≤ 0x00F ∧ (Access.write c.1 c.2 0#32).aligned = true := by
  decide

theorem not_engineMoves_of_idle (s : State) (h : s.status.busy = false) : ¬ engineMoves s := by
  intro ⟨t, ht⟩
  rcases turn_cases s with ⟨_, _, _, e⟩ | ⟨_, _, _, _, e⟩ | ⟨_, _, _, _, _, _, _, hb, e⟩ | ⟨_, _, _, _, _, _, e⟩ |
    ⟨_, _, _, _, _, _, e⟩
  · rw [ht] at e; cases e
  · rw [ht] at e; cases e
  · rw [h] at hb; cases hb
  · rw [ht] at e; cases e
  · rw [ht] at e; cases e

theorem test_witness_ResultFieldsChangeOnlyAtCompletion :
    ∃ t, step State.reset = .next t ∧ resetsNow State.reset = false ∧ ¬ engineMoves State.reset :=
  ⟨_, rfl, by decide +kernel, not_engineMoves_of_idle _ rfl⟩

/-- An INIT that binds, and a reset that drops. -/
theorem test_witness_InstanceChangesOnlyByInitOrReset :
    (∃ t, step (running .init (keyed zeroKey)) = .next t ∧
      t.status.instValid ≠ (running .init (keyed zeroKey)).status.instValid) ∧
    (∃ t, step ((bound 0 0 []).setEnv { Env.start with sched := [.hardReset] }) = .next t ∧
      t.status.instValid ≠ (bound 0 0 []).status.instValid) :=
  ⟨⟨_, rfl, by decide⟩, ⟨_, rfl, by decide⟩⟩

theorem test_witness_InterruptFollowsDone :
    (∃ t, exec .nop (running .nop State.reset) = .next t ∧ t.status.busy = false ∧
      (running .nop State.reset).status.busy = true) ∧ (2#32).getLsbD 1 = true :=
  ⟨⟨_, rfl, rfl, rfl⟩, rfl⟩

/-- BOVR set, and the STATUS write that clears it is served. -/
def overrunning : State :=
  { State.reset with
    status := { State.reset.status with bovr := true }
    env := { Env.start with sched := [.host (.write 0x00C#23 .byte 0x40#32)] } }

theorem test_witness_OverrunSetsBovrUntilCleared :
    ((running .nop State.reset).status.fault = false ∧ (running .nop State.reset).status.busy = true) ∧
    ∃ t, step overrunning = .next t ∧ overrunning.status.bovr = true ∧ t.status.bovr = false :=
  ⟨⟨rfl, rfl⟩, _, rfl, rfl, by decide +kernel⟩

/-- A state in FAULT, as a SEAL with a wrong nonce length leaves it. -/
def faulted : State := faultEntered (running .sealCmd { bound 0 3 [] with nonceLen := 9#8 })

theorem faulted_invariant (e : Env) (h : e.port = none) : Invariant (faulted.setEnv e) where
  memCanonical := Memory.wf_nil
  memInBuffers := fun c hc => by cases hc
  scrubbed := ⟨rfl, rfl, rfl, rfl⟩
  noInstanceShort := fun _ => rfl
  faultLocked := fun _ => ⟨rfl, rfl, rfl⟩
  idleLatch := fun _ => rfl
  busyNotDone := fun h => by cases h
  authOkMeans := fun h => by cases h
  portHeld := fun a ha => by rw [State.setEnv_env, h] at ha; cases ha

theorem test_witness_FaultLastsUntilReset :
    (Invariant (faulted.setEnv Env.start) ∧ (faulted.setEnv Env.start).status.fault = true ∧
      resetsNow (faulted.setEnv Env.start) = false ∧ ∃ t, step (faulted.setEnv Env.start) = .next t) ∧
    (resetsNow (faulted.setEnv { Env.start with sched := [.hardReset] }) = true ∧
      ∃ t, step (faulted.setEnv { Env.start with sched := [.hardReset] }) = .next t) ∧
    (resetsNow (faulted.setEnv { Env.start with sched := [.host (.write 0x010#23 .byte 1#32)] }) = true ∧
      ∃ t, step (faulted.setEnv { Env.start with sched := [.host (.write 0x010#23 .byte 1#32)] }) = .next t) :=
  ⟨⟨faulted_invariant _ rfl, rfl, by decide +kernel, _, rfl⟩, ⟨rfl, _, rfl⟩, by decide +kernel, _, rfl⟩

/-! The bus -/

theorem test_witness_ConstantRegistersReadTheirValues :
    ∀ c ∈ [(0x000#23, Size.word), (0x003#23, Size.byte), (0x024#23, Size.half), (0x02F#23, Size.byte)],
      (c.1.toNat < 4 ∨ (0x024 ≤ c.1.toNat ∧ c.1.toNat < 0x030)) ∧ (Access.write c.1 c.2 0#32).aligned = true := by
  decide

theorem test_witness_NonceSizeReadsTheMode :
    State.reset.status.instValid = false ∧ (bound 0 0 []).status.instValid = true ∧
    (bound 0 0 []).status.mode = .short ∧
    { (bound 0 0 []).status with mode := .extended }.instValid = true ∧
    (∀ c ∈ [(0x020#23, Size.word), (0x023#23, Size.byte)], 0x020 ≤ c.1.toNat ∧ c.1.toNat < 0x024 ∧
      (Access.write c.1 c.2 0#32).aligned = true) := by
  decide

theorem test_witness_MisalignedAccessIsRefused :
    (0x400001#23).toNat % Size.half.bytes ≠ 0 ∧ (0x002#23).toNat % Size.word.bytes ≠ 0 := by
  decide

/-- The first and last offset of each hole, and of each mapped range. -/
theorem test_witness_UnmappedAccessIsRefused :
    (∀ off ∈ [0x001000#23, 0x0FFFFF#23], 0x001000 ≤ (Access.read off .byte).offset ∧
      (Access.read off .byte).offset < 0x100000) ∧
    (∀ k, k = Config.params.adCap ∨ k = 0x2FFFFF →
      0x100000 + Config.params.adCap ≤ (Access.read (BitVec.ofNat 23 (0x100000 + k)) .byte).offset ∧
      (Access.read (BitVec.ofNat 23 (0x100000 + k)) .byte).offset < 0x400000) ∧
    (Config.params.dCap < 2 ^ 22 →
      0x400000 + Config.params.dCap ≤ (Access.read (BitVec.ofNat 23 (0x400000 + Config.params.dCap)) .byte).offset) ∧
    (∀ k, k = 0 ∨ k = Config.params.adCap - 1 →
      0x100000 ≤ (Access.read (BitVec.ofNat 23 (0x100000 + k)) .byte).offset ∧
      (Access.read (BitVec.ofNat 23 (0x100000 + k)) .byte).offset < 0x100000 + Config.params.adCap) ∧
    (∀ k, k = 0 ∨ k = Config.params.dCap - 1 →
      0x400000 ≤ (Access.read (BitVec.ofNat 23 (0x400000 + k)) .byte).offset ∧
      (Access.read (BitVec.ofNat 23 (0x400000 + k)) .byte).offset < 0x400000 + Config.params.dCap) ∧
    ((Access.read 0xFFF#23 .byte).offset < 0x1000 ∧ (Access.read 0xFFF#23 .byte).aligned = true) := by
  have ha := adCap_bounds
  have hd := dCap_bounds
  have ho : ∀ n, (Access.read (BitVec.ofNat 23 n) .byte).offset = n % 2 ^ 23 := fun n => by simp [Access.offset]
  simp only [ho]
  refine ⟨?_, ?_, ?_, ?_, ?_, ?_⟩
  · simp [Access.offset]
  · omega
  · omega
  · omega
  · omega
  · simp [Access.offset, Access.aligned, Access.bytes, Size.bytes]

/-- The first and last byte of each buffer, and its first word. -/
theorem test_witness_BufferWriteStoresItsBytes :
    (∀ off ∈ [0x100#23, 0x117#23], InBuffer Config.params off.toNat ∧ (Access.write off .byte 0#32).aligned = true) ∧
    InBuffer Config.params (0x100000#23).toNat ∧ InBuffer Config.params (0x400000#23).toNat ∧
    InBuffer Config.params (0x100000 + Config.params.adCap - 1) ∧
    InBuffer Config.params (0x400000 + Config.params.dCap - 1) ∧
    (Access.write 0x400000#23 .word 0#32).aligned = true := by
  have ha := adCap_bounds
  have hd := dCap_bounds
  simp only [InBuffer, nonceBase, nonceBytes, adBase, dBase]
  refine ⟨?_, ?_, ?_, ?_, ?_, by decide⟩
  · intro off h
    simp only [List.mem_cons, List.not_mem_nil, or_false] at h
    rcases h with rfl | rfl <;> exact ⟨.inl (by decide), by simp [Access.aligned, Access.bytes, Size.bytes]; omega⟩
  · exact .inr (.inl ⟨by decide, by simp; omega⟩)
  · exact .inr (.inr ⟨by decide, by simp; omega⟩)
  · omega
  · omega

/-- The first and last aligned reads of a buffer and of the register page's listed registers, of every size. -/
theorem test_witness_WordReadsBackAsWritten :
    (InBuffer Config.params (0x114#23).toNat ∧ (0x114#23).toNat % 4 = 0 ∧ (0x014#23).toNat % 4 = 0 ∧
      (0x018#23).toNat % 4 = 0) ∧
    (InBuffer Config.params (0x117#23).toNat ∧ (0x117#23).toNat % Size.byte.bytes = 0 ∧
      (0x114#23).toNat % Size.word.bytes = 0) ∧
    (∀ c ∈ [(0x000#23, 0x000#23, Size.word), (0x006#23, 0x004#23, Size.half), (0x01D#23, 0x01C#23, Size.byte),
      (0x02F#23, 0x02C#23, Size.byte)],
      c.1.toNat < 0x030 ∧ c.1.toNat % c.2.2.bytes = 0 ∧ c.2.1.toNat = c.1.toNat - c.1.toNat % 4) :=
  ⟨⟨.inl (by decide), by decide⟩, ⟨.inl (by decide), by decide⟩, by decide⟩

theorem test_witness_NarrowWriteReplacesItsBytes :
    ∀ c ∈ [(0x014#23, Size.word), (0x016#23, Size.half), (0x017#23, Size.byte)],
      (Access.write c.1 c.2 0#32).aligned = true ∧ c.1.toNat / 4 = 5 ∧
      (Access.write (c.1 + 4#23) c.2 0#32).aligned = true ∧ (c.1 + 4#23).toNat / 4 = 6 := by
  decide

theorem test_witness_ConfigurationWritesReachTheirFields :
    (Access.write 0x004#23 .byte 3#32).aligned = true ∧ (0x004#23).toNat = 0x004 ∧
    (Access.write 0x01C#23 .word 8#32).aligned = true ∧ (0x01C#23).toNat = 0x01C ∧
    (∀ off ∈ [0x005#23, 0x007#23, 0x01D#23, 0x01F#23], (Access.write off .byte 8#32).aligned = true ∧
      ((0x005 ≤ off.toNat ∧ off.toNat ≤ 0x007) ∨ (0x01D ≤ off.toNat ∧ off.toNat ≤ 0x01F))) := by
  simp [Access.offset, Access.aligned, Access.bytes, Size.bytes]

theorem test_witness_ReservedAndWriteOnlyOffsets :
    (∀ c ∈ [(0x030#23, Size.word), (0x0FF#23, Size.byte), (0x118#23, Size.half), (0xFFC#23, Size.word),
      (0x008#23, Size.half), (0x013#23, Size.byte)], c.1.toNat % c.2.bytes = 0) ∧
    (0x008#23).toNat / 4 = 2 ∧ Size.half ≠ .word ∧ (0x013#23).toNat / 4 = 4 := by
  decide

/-- A held access, a misaligned held access, one served while BUSY, one that waited until BUSY = 0 with nothing or another access behind it, and one
to an idle block. -/
theorem test_witness_HeldAccessesWait :
    (Access.read 0x020#23 .word).offset / 4 ∈ [1, 5, 6, 7, 8] ∧
    (Access.read 0x01A#23 .word).offset / 4 ∈ [1, 5, 6, 7, 8] ∧
    InBuffer Config.params (Access.read 0x117#23 .byte).offset ∧
    ¬((Access.read 0x024#23 .word).offset / 4 ∈ [1, 5, 6, 7, 8] ∨
      InBuffer Config.params (Access.read 0x024#23 .word).offset) ∧
    (let s := (running .nop State.reset).setEnv { Env.start with sched := [.host (.read 0x020#23 .word)] };
      s.env.sched = [.host (.read 0x020#23 .word)] ∧ s.env.port = none ∧ s.status.busy = true) ∧
    (∀ sched ∈ [[], [Event.host (.read 0x00C#23 .word)]],
      let s := State.reset.setEnv { Env.start with sched := sched, port := some (.read 0x020#23 .word) };
      s.env.port = some (.read 0x020#23 .word) ∧ s.status.busy = false ∧
        (s.env.sched = [] ∨ ∃ b, s.env.sched = .host b :: [])) ∧
    (let s := State.reset.setEnv { Env.start with sched := [.host (.read 0x020#23 .word)] };
      s.env.sched = [.host (.read 0x020#23 .word)] ∧ s.env.port = none ∧ s.status.busy = false) := by
  refine ⟨by decide, by decide, .inl (by decide), ?_, ⟨rfl, rfl, rfl⟩, ?_, rfl, rfl, rfl⟩
  · simp only [InBuffer, nonceBase, nonceBytes, adBase, dBase]
    simp [Access.offset]
  · intro sched h
    simp only [List.mem_cons, List.not_mem_nil, or_false] at h
    rcases h with rfl | rfl
    · exact ⟨rfl, rfl, .inl rfl⟩
    · exact ⟨rfl, rfl, .inr ⟨_, rfl⟩⟩

/-- A step while BUSY that is not the engine's: a read of STATUS. -/
theorem test_witness_InputsAreProtectedWhileBusy :
    let s := (running .nop State.reset).setEnv { Env.start with sched := [.host (.read 0x00C#23 .word)] }
    s.status.busy = true ∧ ¬ engineMoves s ∧ resetsNow s = false ∧ ∃ t, step s = .next t := by
  intro s
  refine ⟨rfl, fun ⟨t, ht⟩ => ?_, by decide +kernel, step_answers s⟩
  have hm : turn Config.params s = .moved (issue Config.params (.read 0x00C#23 .word) (popEvent [] s)) := rfl
  rw [hm] at ht
  exact Turn.noConfusion ht

/-! Reset and the whole machine -/

theorem test_witness_ResetValues : 0x020#23 ∈ [0x004#23, 0x008#23, 0x00C#23, 0x010#23, 0x014#23, 0x018#23, 0x01C#23, 0x020#23] := by
  decide

theorem test_witness_BothResetsRestoreEveryField :
    (faulted.setEnv { Env.start with sched := [.hardReset] }).env.sched = [.hardReset] ∧ (1#32).getLsbD 0 = true ∧
    ((0x011#23).toNat / 4 = 4 ∧ (0x011#23).toNat % Size.byte.bytes = 0 ∧ (0x011#23).toNat ≠ 0x010) ∧
    ((0x010#23).toNat / 4 = 4 ∧ (0x010#23).toNat % Size.word.bytes = 0 ∧ (2#32).getLsbD 0 = false) := by
  decide

theorem test_witness_EveryStepKeepsTheInvariant :
    Invariant (faulted.setEnv Env.start) ∧ ∃ t, step (faulted.setEnv Env.start) = .next t :=
  ⟨faulted_invariant _ rfl, _, rfl⟩

theorem test_witness_TheEngineEndsTheCommand :
    (running .zeroize State.reset).status.busy = true ∧ collaboratorsAnswer (running .zeroize State.reset) = true :=
  ⟨rfl, rfl⟩

/-- A step that uses the secret registers: the engine's, in a SEAL. -/
theorem test_witness_SecretRegistersAreUnobservable :
    ∃ t, step (withSecrets (Vector.replicate 32 1#8) (Vector.replicate 16 2#8) (Vector.replicate 64 3#8) 4#8
      (running .sealCmd (bound 0 3 []))) = .next t := step_answers _

end Sys2Proof.Tests
end

section

/-! The parameters of the implementation lie in the ranges of rule R7. -/

namespace Sys2Proof.Proofs

theorem params_adCap : Config.params.adCap = 4 * (Config.adCapChoice.toNat + 1) := rfl

theorem params_dCap : Config.params.dCap = 4 * (Config.dCapChoice % (2 ^ 20 - 3) + 4) := rfl

theorem params_lanes : Config.params.lanes = 2 ^ (Config.lanesChoice % 7) := rfl

/-- The choice is an 18-bit word, so it is at most 2 ^ 18 - 1 (rule R7). -/
theorem params_adCap_le : Config.params.adCap ≤ 2 ^ 20 := by
  have hchoice := Config.adCapChoice.isLt
  rw [params_adCap]
  omega

/-- The choice counts only modulo 2 ^ 20 - 3, the number of legal values of D_CAP (rule R7). -/
theorem params_dCap_le : Config.params.dCap ≤ 2 ^ 22 := by
  have hchoice : Config.dCapChoice % (2 ^ 20 - 3) < 2 ^ 20 - 3 := Nat.mod_lt _ (by decide)
  rw [params_dCap]
  omega

theorem two_pow_mem_laneCounts : ∀ e < 7, 2 ^ e ∈ [1, 2, 4, 8, 16, 32, 64] := by decide

theorem params_lanes_mem : Config.params.lanes ∈ [1, 2, 4, 8, 16, 32, 64] :=
  two_pow_mem_laneCounts _ (Nat.mod_lt _ (by decide))

/-- Settles O42: each open choice is cut to its range by its width or by a remainder. -/
theorem parametersAreLegal : Obligations.ParametersAreLegal where
  adCap_dvd := Dvd.intro _ rfl
  adCap_ge := by rw [params_adCap]; omega
  adCap_le := params_adCap_le
  dCap_dvd := Dvd.intro _ rfl
  dCap_ge := by rw [params_dCap]; omega
  dCap_le := params_dCap_le
  lanes_mem := params_lanes_mem

end Sys2Proof.Proofs
end

section

/-! What a pass of the KXU leaves: each position below 32 sets its byte of OTK, each position from 64 on its byte of the
output, and each position is requested once, in order (rules R91, R92). -/

namespace Sys2Proof.Proofs

open Sys2Proof.Machine

/-! ### The multiplexer, field by field -/

theorem laneMux_calls (p : Nat) (k : Byte) (d : List Byte) (u : Kxu) : (laneMux p k d u).calls = u.calls := by
  unfold laneMux
  split_ifs <;> rfl

theorem laneMux_otk (p : Nat) (k : Byte) (d : List Byte) (u : Kxu) :
    (laneMux p k d u).otk = u.otk.setIfInBounds p k := by
  unfold laneMux
  split_ifs with hkey hdiscard
  · simp
  · exact (Vector.setIfInBounds_eq_of_size_le (not_lt.mp hkey)).symm
  · exact (Vector.setIfInBounds_eq_of_size_le (not_lt.mp hkey)).symm

theorem laneMux_out (p : Nat) (k : Byte) (d : List Byte) (u : Kxu) :
    (laneMux p k d u).out = if p < 64 then u.out else u.out.set (p - 64) (d.getD (p - 64) 0#8 ^^^ k) := by
  unfold laneMux
  split_ifs with hkey hlow hdiscard
  · rfl
  · omega
  · rfl
  · rfl

/-! ### The positions of a pass, field by field -/

/-- The keystream byte a pass gets at a position (rule R86). -/
def passKey (P : Config.Params) (r : Pass) (p : Nat) : Byte := P.ks r.key r.mode r.nonce p

theorem posStep_otk (P : Config.Params) (r : Pass) (u : Kxu) (p : Nat) :
    (posStep P r u p).otk = u.otk.setIfInBounds p (passKey P r p) := laneMux_otk ..

theorem posStep_out (P : Config.Params) (r : Pass) (u : Kxu) (p : Nat) :
    (posStep P r u p).out = if p < 64 then u.out else u.out.set (p - 64) (r.d.getD (p - 64) 0#8 ^^^ passKey P r p) :=
  laneMux_out ..

theorem posStep_calls (P : Config.Params) (r : Pass) (u : Kxu) (p : Nat) :
    (posStep P r u p).calls = u.calls ++ [.ks r.mode r.nonce p] := laneMux_calls ..

theorem foldl_posStep_otk (P : Config.Params) (r : Pass) (ps : List Nat) (u : Kxu) (i : Nat) (hi : i < 32) :
    (ps.foldl (posStep P r) u).otk[i] = if i ∈ ps then passKey P r i else u.otk[i] := by
  induction ps generalizing u with
  | nil => simp
  | cons p ps ih =>
    rw [List.foldl_cons, ih, posStep_otk, Vector.getElem_setIfInBounds]
    by_cases hp : p = i
    · simp [hp]
    · simp [hp, Ne.symm hp]

theorem foldl_posStep_out (P : Config.Params) (r : Pass) (ps : List Nat) (u : Kxu) (i : Nat) :
    (ps.foldl (posStep P r) u).out[i]? =
      if 64 + i ∈ ps then u.out[i]?.map fun _ => r.d.getD i 0#8 ^^^ passKey P r (64 + i) else u.out[i]? := by
  induction ps generalizing u with
  | nil => simp
  | cons p ps ih =>
    rw [List.foldl_cons, ih, posStep_out]
    by_cases hp : p = 64 + i
    · subst hp
      by_cases hps : 64 + i ∈ ps <;> simp [hps, List.getElem?_set', Function.const_def]
    · have hne : ¬p < 64 → p - 64 ≠ i := by omega
      by_cases hlow : p < 64 <;> simp [hlow, hne, Ne.symm hp, List.getElem?_set_ne]

theorem foldl_posStep_calls (P : Config.Params) (r : Pass) (ps : List Nat) (u : Kxu) :
    (ps.foldl (posStep P r) u).calls = u.calls ++ ps.map fun p => .ks r.mode r.nonce p := by
  induction ps generalizing u with
  | nil => simp
  | cons p ps ih => rw [List.foldl_cons, ih, posStep_calls]; simp

/-! ### The passes of SEAL and OPEN -/

/-- The output of a pass that reaches all data positions: the data XORed with the keystream from position 64 on. -/
theorem kxuPass_out (P : Config.Params) (mode : NonceMode) (nonce d : List Byte) (lo : Nat) (s : State)
    (hW : 0 < P.lanes) (hlo : lo ≤ 64) :
    (kxuPass P mode nonce d lo (64 + d.length) s).2 =
      (List.range d.length).map fun i => d.getD i 0#8 ^^^ P.ks s.env.key mode nonce (64 + i) := by
  apply List.ext_getElem?
  intro i
  simp only [kxuPass]
  rw [runPass_eq_positions _ _ _ hW, foldl_posStep_out]
  by_cases hi : i < d.length
  · rw [if_pos (by simp; omega)]
    simp [hi, passKey]
  · simp [hi]

theorem length_kxuPass_out (P : Config.Params) (mode : NonceMode) (nonce d : List Byte) (lo : Nat) (s : State)
    (hW : 0 < P.lanes) (hlo : lo ≤ 64) : (kxuPass P mode nonce d lo (64 + d.length) s).2.length = d.length := by
  simp [kxuPass_out P mode nonce d lo s hW hlo]

/-- A pass from position 0 through the key lanes replaces OTK whole (rules R92, R95, R96). -/
theorem kxuPass_otk (P : Config.Params) (mode : NonceMode) (nonce d : List Byte) (hi : Nat) (s : State)
    (hW : 0 < P.lanes) (hhi : 32 ≤ hi) :
    (kxuPass P mode nonce d 0 hi s).1.otk = Vector.ofFn fun p : Fin 32 => P.ks s.env.key mode nonce p.val := by
  refine (congrArg Kxu.otk (runPass_eq_positions P _ _ hW)).trans (Vector.ext fun i hi32 => ?_)
  rw [foldl_posStep_otk _ _ _ _ _ hi32, if_pos (by simp; omega)]
  simp [passKey]

/-- A pass requests its positions, in order, and touches nothing else outside the block (rule R91). -/
theorem kxuPass_env (P : Config.Params) (mode : NonceMode) (nonce d : List Byte) (lo hi : Nat) (s : State)
    (hW : 0 < P.lanes) :
    (kxuPass P mode nonce d lo hi s).1.env =
      { s.env with calls := s.env.calls ++ (List.range' lo (hi - lo)).map fun p => .ks mode nonce p } := by
  simp only [kxuPass, recordCalls_env]
  rw [runPass_eq_positions _ _ _ hW, foldl_posStep_calls]
  rfl

/-- A pass from position 0 through the key lanes: only the contents of KSTAGE are not told (rules R95, R96). -/
theorem kxuPass_keyed (P : Config.Params) (mode : NonceMode) (nonce d : List Byte) (hi : Nat) (s : State)
    (hW : 0 < P.lanes) (hhi : 32 ≤ hi) :
    ∃ k : Vector Byte 64,
      (kxuPass P mode nonce d 0 hi s).1 =
        { s with
          otk := Vector.ofFn fun p : Fin 32 => P.ks s.env.key mode nonce p.val
          kstage := k
          env := { s.env with calls := s.env.calls ++ (List.range' 0 hi).map fun p => .ks mode nonce p } } := by
  refine ⟨(kxuPass P mode nonce d 0 hi s).1.kstage, ?_⟩
  have hotk := kxuPass_otk P mode nonce d hi s hW hhi
  have henv := kxuPass_env P mode nonce d 0 hi s hW
  rw [Nat.sub_zero] at henv
  rw [← hotk, ← henv]
  rfl

end Sys2Proof.Proofs
end

section

/-! Scrubbing commutes with every move of the machine: no move reads what the secret registers held before it
(rules R34 to R37, R48, R110). -/

namespace Sys2Proof.Proofs

open Sys2Proof.Machine

theorem params_lanes_pos : 0 < Config.params.lanes := Nat.two_pow_pos _

/-! ### The operands lie outside the secret registers -/

@[simp] theorem nonceSize_scrub (s : State) : nonceSize (scrub s) = nonceSize s := rfl
@[simp] theorem nonceOperand_scrub (s : State) : nonceOperand (scrub s) = nonceOperand s := rfl
@[simp] theorem adOperand_scrub (s : State) : adOperand (scrub s) = adOperand s := rfl
@[simp] theorem dataOperand_scrub (n : Nat) (s : State) : dataOperand n (scrub s) = dataOperand n s := rfl
@[simp] theorem tagOperand_scrub (n : Nat) (s : State) : tagOperand n (scrub s) = tagOperand n s := rfl
@[simp] theorem collaboratorsAnswer_scrub (s : State) : collaboratorsAnswer (scrub s) = collaboratorsAnswer s := rfl
@[simp] theorem finish_scrub (code : ErrCode) (s : State) : finish code (scrub s) = scrub (finish code s) := rfl
@[simp] theorem raiseInvalidNonceSize_scrub (s : State) :
    raiseInvalidNonceSize (scrub s) = scrub (raiseInvalidNonceSize s) := rfl

/-! ### The commands -/

/-- A pass over the key lanes does not read the secret registers: it replaces OTK, and nothing reads KSTAGE. -/
theorem kxuPass_fst_scrub (P : Config.Params) (mode : NonceMode) (nonce d : List Byte) (hi : Nat) (s : State)
    (hW : 0 < P.lanes) (hhi : 32 ≤ hi) :
    ∃ k : Vector Byte 64, (kxuPass P mode nonce d 0 hi (scrub s)).1 =
      { scrub (kxuPass P mode nonce d 0 hi s).1 with otk := (kxuPass P mode nonce d 0 hi s).1.otk, kstage := k } := by
  obtain ⟨k, hs⟩ := kxuPass_keyed P mode nonce d hi s hW hhi
  obtain ⟨k', hscrub⟩ := kxuPass_keyed P mode nonce d hi (scrub s) hW hhi
  exact ⟨k', by rw [hs, hscrub]; simp only [scrub]⟩

theorem kxuRun_snd_scrub (P : Config.Params) (mode : NonceMode) (nonce d : List Byte) (s : State) (hW : 0 < P.lanes) :
    (kxuRun P mode nonce d (scrub s)).2 = (kxuRun P mode nonce d s).2 := by
  rw [kxuRun, kxuRun, kxuPass_out _ _ _ _ _ _ hW (by omega), kxuPass_out _ _ _ _ _ _ hW (by omega), scrub_env]

theorem sealData_scrub (P : Config.Params) (s : State) (hW : 0 < P.lanes) :
    sealData P (scrub s) = scrub (sealData P s) := by
  obtain ⟨k, hpass⟩ := kxuPass_fst_scrub P s.status.mode (nonceOperand s) (dataOperand s.dLen.toNat s)
    (64 + (dataOperand s.dLen.toNat s).length) s hW (by omega)
  simp only [sealData, scrub_dLen, scrub_status, nonceOperand_scrub, dataOperand_scrub, adOperand_scrub,
    kxuRun_snd_scrub P _ _ _ s hW]
  simp only [kxuRun, macPort, hpass]
  rfl

theorem openVerify_scrub (P : Config.Params) (s : State) (hW : 0 < P.lanes) :
    openVerify P (scrub s) = openVerify P s := by
  obtain ⟨k, hpass⟩ := kxuPass_fst_scrub P s.status.mode (nonceOperand s) [] 64 s hW (by omega)
  simp only [openVerify, scrub_dLen, scrub_status, nonceOperand_scrub, dataOperand_scrub, adOperand_scrub,
    tagOperand_scrub, kxuKey, macPort, hpass]
  rfl

theorem scrub_openVerify (P : Config.Params) (s : State) : scrub (openVerify P s).1 = (openVerify P s).1 := rfl

theorem scrub_openDecrypt (P : Config.Params) (s : State) : scrub (openDecrypt P s) = openDecrypt P s := by
  simp only [openDecrypt, finish, writeData, scrub]

theorem openData_scrub (P : Config.Params) (s : State) (hW : 0 < P.lanes) :
    openData P (scrub s) = scrub (openData P s) := by
  simp only [openData, openVerify_scrub P s hW, apply_ite scrub, scrub_openDecrypt, ← finish_scrub, scrub_openVerify]

theorem sealCommand_scrub (P : Config.Params) (s : State) (hW : 0 < P.lanes) :
    sealCommand P (scrub s) = scrub (sealCommand P s) := by
  simp only [sealCommand, sealData_scrub P s hW, apply_ite scrub]
  rfl

theorem openCommand_scrub (P : Config.Params) (s : State) (hW : 0 < P.lanes) :
    openCommand P (scrub s) = scrub (openCommand P s) := by
  simp only [openCommand, openData_scrub P s hW, apply_ite scrub]
  rfl

theorem initCommand_scrub (s : State) : initCommand (scrub s) = scrub (initCommand s) := by
  simp only [initCommand, apply_ite scrub]
  rfl

theorem exec_scrub (i : Instr) (s t : State) (h : exec i s = .next t) : exec i (scrub s) = .next (scrub t) := by
  cases i with
  | nop => cases h; rfl
  | init => cases h; exact congrArg _ (initCommand_scrub s)
  | sealCmd => cases h; exact congrArg _ (sealCommand_scrub _ s params_lanes_pos)
  | openCmd => cases h; exact congrArg _ (openCommand_scrub _ s params_lanes_pos)
  | zeroize => cases h; rfl
  | illegal rsvd opc => cases h; rfl

theorem exec_answers (i : Instr) (s : State) : ∃ t, exec i s = .next t := by
  cases i <;> exact ⟨_, rfl⟩

/-! ### The bus and the turns -/

theorem regValue_scrub (P : Config.Params) (s : State) (r : Reg) : regValue P (scrub s) r = regValue P s r := by
  cases r <;> rfl

theorem byteAt_scrub (P : Config.Params) (s : State) (off : Nat) : byteAt P (scrub s) off = byteAt P s off := by
  simp only [byteAt, regValue_scrub, scrub_mem]

theorem readData_scrub (P : Config.Params) (s : State) (off n : Nat) :
    readData P (scrub s) off n = readData P s off n := by
  induction n with
  | zero => rfl
  | succ n ih => rw [readData, readData, ih, byteAt_scrub]

theorem cmdWrite_scrub (w : Word) (s : State) : cmdWrite w (scrub s) = scrub (cmdWrite w s) := by
  simp only [cmdWrite, apply_ite scrub]
  rfl

theorem writeReg_scrub (r : Reg) (off n : Nat) (v : Word) (s : State) :
    writeReg r off n v (scrub s) = scrub (writeReg r off n v s) := by
  cases r with
  | cmd => simp only [writeReg, apply_ite scrub, cmdWrite_scrub]
  | ctrl => simp only [writeReg, apply_ite scrub]; rfl
  | _ => rfl

theorem writeAt_scrub (P : Config.Params) (off n : Nat) (v : Word) (s : State) :
    writeAt P off n v (scrub s) = scrub (writeAt P off n v s) := by
  unfold writeAt
  split
  · exact writeReg_scrub ..
  all_goals rfl

theorem perform_scrub (P : Config.Params) (a : Access) (s : State) : perform P a (scrub s) = scrub (perform P a s) := by
  unfold perform
  split
  · rfl
  · cases a with
    | read off size => simp only [readData_scrub]; rfl
    | write off size v => simp only [writeAt_scrub]; rfl

theorem issue_scrub (P : Config.Params) (a : Access) (s : State) : issue P a (scrub s) = scrub (issue P a s) := by
  simp only [issue, perform_scrub, apply_ite scrub]
  rfl

/-- A turn with the state it leads to, or is taken from, scrubbed. -/
def scrubTurn : Turn → Turn
  | .engine s => .engine (scrub s)
  | .moved s => .moved (scrub s)

theorem engineTurn_scrub (s : State) : engineTurn (scrub s) = scrubTurn (engineTurn s) := by
  simp only [engineTurn, apply_ite scrubTurn]
  rfl

theorem portTurn_scrub (P : Config.Params) (a : Access) (s : State) :
    portTurn P a (scrub s) = scrubTurn (portTurn P a s) := by
  simp only [portTurn, apply_ite scrubTurn, engineTurn_scrub]
  exact congrArg _ (congrArg Turn.moved (perform_scrub P a { s with env := { s.env with port := none } }))

theorem turn_scrub (P : Config.Params) (s : State) : turn P (scrub s) = scrubTurn (turn P s) := by
  unfold turn
  rw [scrub_env]
  cases s.env.sched with
  | nil =>
    cases s.env.port with
    | none => exact engineTurn_scrub s
    | some w => exact portTurn_scrub P w s
  | cons ev rest =>
    cases ev with
    | host a =>
      cases s.env.port with
      | none => exact congrArg Turn.moved (issue_scrub P a (popEvent rest s))
      | some w => exact portTurn_scrub P w s
    | engine => exact engineTurn_scrub (popEvent rest s)
    | _ => rfl

theorem step_scrub (s t : State) (h : step s = .next t) : step (scrub s) = .next (scrub t) := by
  unfold step at h ⊢
  rw [turn_scrub]
  cases hturn : turn Config.params s with
  | engine u =>
    rw [hturn] at h
    exact exec_scrub _ u t h
  | moved u =>
    rw [hturn] at h
    cases h
    rfl

theorem step_total (s : State) : ∃ t, step s = .next t := by
  unfold step
  split
  · exact exec_answers ..
  · exact ⟨_, rfl⟩

theorem scrub_withSecrets (o : Vector Byte 32) (e : Vector Byte 16) (k : Vector Byte 64) (c : Byte) (s : State) :
    scrub (withSecrets o e k c s) = scrub s := rfl

/-- States that scrub to the same state differ only in the secret registers. -/
theorem eq_withSecrets_of_scrub_eq (s t : State) (h : scrub s = scrub t) :
    s = withSecrets s.otk s.etag s.kstage s.acc t := by
  have hput := congrArg (withSecrets s.otk s.etag s.kstage s.acc) h
  exact hput

/-- Settles O59: both states scrub to the same state, and a step of the scrubbed state is the scrubbed step. -/
theorem secretRegistersAreUnobservable : Obligations.SecretRegistersAreUnobservable := by
  intro s t o e k c h
  obtain ⟨t', h'⟩ := step_total (withSecrets o e k c s)
  have hscrub := step_scrub _ t' h'
  rw [scrub_withSecrets, step_scrub s t h] at hscrub
  injection hscrub with hscrub
  exact ⟨t'.otk, t'.etag, t'.kstage, t'.acc, h'.trans (congrArg _ (eq_withSecrets_of_scrub_eq t' t hscrub.symm))⟩

end Sys2Proof.Proofs
end

section

/-! What a command can do, told once: how it ends, and what the data paths of SEAL and OPEN write (rules R64, R67 to R74). -/

namespace Sys2Proof.Proofs

open Sys2Proof.Machine

/-! ### The latched word -/

theorem cmdWord_fields (w : Word) : cmdWord (rsvdField w) (opcField w) = w := by
  unfold cmdWord rsvdField opcField
  rw [BitVec.extractLsb'_append_extractLsb'_eq_extractLsb' (by omega)]
  simp

theorem encode_decodeWord (w : Word) : encode (decodeWord w) = w := by
  have hw := cmdWord_fields w
  unfold decodeWord
  split_ifs with hrsvd h0 h1 h2 h3 h4
  · exact hw
  all_goals
    rw [not_not] at hrsvd
    rw [hrsvd] at hw
  · rwa [h0] at hw
  · rwa [h1] at hw
  · rwa [h2] at hw
  · rwa [h3] at hw
  · rwa [h4] at hw
  · rwa [hrsvd]

/-- The engine runs INIT only if its word is latched (rules R57, R65). -/
theorem eq_one_of_decodeWord_init (w : Word) (h : decodeWord w = .init) : w = 1#32 := by
  rw [← encode_decodeWord w, h]
  rfl

/-! ### The data paths of SEAL and OPEN -/

theorem writeBytes_append (m : Memory) (base : Nat) (bs cs : List Byte) :
    (m.writeBytes base bs).writeBytes (base + bs.length) cs = m.writeBytes base (bs ++ cs) := by
  induction bs generalizing m base with
  | nil => rfl
  | cons b bs ih =>
    rw [List.cons_append, Memory.writeBytes, Memory.writeBytes, ← ih, List.length_cons, Nat.add_right_comm,
      Nat.add_assoc]

/-- A state whose data path has run: bytes written from the start of DBUF on, D_LEN set, calls recorded, secrets zero. -/
def dataDone (bs : List Byte) (d : Word) (cs : List PortCall) (s : State) : State :=
  recordCalls cs (scrub { s with mem := s.mem.writeBytes dBase bs, dLen := d })

theorem writeData_writeData (n : Nat) (bs cs : List Byte) (s : State) (hn : bs.length = n) :
    writeData n cs (writeData 0 bs s) = writeData 0 (bs ++ cs) s := by
  subst hn
  exact congrArg (fun m => { s with mem := m }) (writeBytes_append s.mem dBase bs cs)

theorem length_dataOperand (n : Nat) (s : State) : (dataOperand n s).length = n := Memory.length_readBytes ..

theorem kxuPass_dataPass (P : Config.Params) (mode : NonceMode) (nonce d : List Byte) (lo : Nat) (s : State)
    (hW : 0 < P.lanes) (hlo : lo ≤ 64) :
    ∃ o k cs out, out.length = d.length ∧ kxuPass P mode nonce d lo (64 + d.length) s =
      ({ s with otk := o, kstage := k, env := { s.env with calls := s.env.calls ++ cs } }, out) := by
  obtain ⟨o, k, cs, hstate⟩ := kxuPass_state P mode nonce d lo (64 + d.length) s
  exact ⟨o, k, cs, _, length_kxuPass_out P mode nonce d lo s hW hlo, Prod.ext hstate rfl⟩

/-- SEAL writes ciphertext and tag, `n + 16` bytes (rule R69). -/
theorem sealData_eq (P : Config.Params) (s : State) (hW : 0 < P.lanes) :
    ∃ bs d cs, bs.length = s.dLen.toNat + tagBytes ∧ sealData P s = finish .ok (dataDone bs d cs s) := by
  obtain ⟨o, k, cs, out, hlen, hpass⟩ :=
    kxuPass_dataPass P s.status.mode (nonceOperand s) (dataOperand s.dLen.toNat s) 0 s hW (by omega)
  rw [length_dataOperand] at hlen
  simp only [sealData, kxuRun, hpass, macPort]
  rw [writeData_writeData _ _ _ _ hlen]
  refine ⟨out ++ (P.mac o (macMessage (adOperand s) out)).toList, BitVec.ofNat 32 (s.dLen.toNat + tagBytes),
    cs ++ [.mac o (macMessage (adOperand s) out)], by simp [hlen, tagBytes], ?_⟩
  simp only [dataDone, recordCalls, scrub, writeData, List.append_assoc, Nat.add_zero]

/-- OPEN up to its verdict records its calls and scrubs, and writes nothing (rules R70, R72). -/
theorem openVerify_eq (P : Config.Params) (s : State) :
    ∃ cs, (openVerify P s).1 = recordCalls cs (scrub s) := by
  obtain ⟨o, k, cs, hpass⟩ := kxuPass_state P s.status.mode (nonceOperand s) [] 0 64 s
  refine ⟨cs ++ [.mac o (macMessage (adOperand s) (dataOperand (s.dLen.toNat - tagBytes) s))], ?_⟩
  simp only [openVerify, kxuKey, hpass, macPort, tcmp, scrub, recordCalls, List.append_assoc]

/-- OPEN after a match writes plaintext and 16 zeros over the envelope (rule R70). -/
theorem openDecrypt_eq (P : Config.Params) (s : State) (hW : 0 < P.lanes) (hlong : tagBytes ≤ s.dLen.toNat) :
    ∃ bs d cs, bs.length = s.dLen.toNat ∧ openDecrypt P s = finish .ok (dataDone bs d cs s) := by
  obtain ⟨o, k, cs, out, hlen, hpass⟩ := kxuPass_dataPass P s.status.mode (nonceOperand s)
    (dataOperand (s.dLen.toNat - tagBytes) s) 64 s hW (by omega)
  rw [length_dataOperand] at hlen
  simp only [openDecrypt, kxuData, hpass]
  rw [writeData_writeData _ _ _ _ hlen]
  refine ⟨out ++ List.replicate tagBytes 0#8, BitVec.ofNat 32 (s.dLen.toNat - tagBytes), cs, by simp; omega, ?_⟩
  simp only [dataDone, recordCalls, scrub, writeData, Nat.add_zero]

theorem dataDone_recordCalls_scrub (bs : List Byte) (d : Word) (cs cs' : List PortCall) (s : State) :
    dataDone bs d cs (recordCalls cs' (scrub s)) = dataDone bs d (cs' ++ cs) s := by
  simp only [dataDone, recordCalls, scrub, List.append_assoc]

/-- OPEN past its checks writes at most the envelope's bytes (rules R70, R72). -/
theorem openData_eq (P : Config.Params) (s : State) (hW : 0 < P.lanes) (hlong : tagBytes ≤ s.dLen.toNat) :
    ∃ code bs d cs, bs.length ≤ s.dLen.toNat ∧ openData P s = finish code (dataDone bs d cs s) := by
  obtain ⟨cs, hverify⟩ := openVerify_eq P s
  simp only [openData, hverify]
  split
  · obtain ⟨bs, d, cs', hlen, hdecrypt⟩ := openDecrypt_eq P (recordCalls cs (scrub s)) hW hlong
    exact ⟨_, bs, d, cs ++ cs', hlen.le, by rw [hdecrypt, dataDone_recordCalls_scrub]⟩
  · exact ⟨_, [], s.dLen, cs, Nat.zero_le _, rfl⟩

/-! ### How a command ends -/

/-- Everything the engine's step can make of a command (rules R64, R67 to R74, R101, R104). -/
inductive Ends (s : State) : Instr → State → Prop where
  /-- A result code alone: NOP, an illegal word, or a failed check. An OPEN that ends so has failed. -/
  | result (i : Instr) (code : ErrCode) (hopen : i = .openCmd → code ≠ .ok) : Ends s i (finish code s)
  /-- INIT binds the block to a key and mode, or drops the binding. -/
  | binding (code : ErrCode) (valid : Bool) (mode : NonceMode) (hmode : valid = false → mode = .short) :
    Ends s .init (finish code { s with status := s.status.bound valid mode })
  | zeroized : Ends s .zeroize (zeroizeCommand Config.params s)
  /-- The fault entry of SEAL and OPEN. -/
  | faulted (i : Instr) (hi : i = .sealCmd ∨ i = .openCmd) (hinst : s.status.instValid = true) :
    Ends s i (raiseInvalidNonceSize s)
  /-- A SEAL or OPEN that waits for a collaborator. -/
  | waiting (i : Instr) (hi : i = .sealCmd ∨ i = .openCmd) : Ends s i s
  /-- A SEAL or OPEN past its checks. -/
  | data (i : Instr) (code : ErrCode) (bs : List Byte) (d : Word) (cs : List PortCall)
    (hi : i = .sealCmd ∨ i = .openCmd) (hinst : s.status.instValid = true) (hlen : bs.length ≤ Config.params.dCap) :
    Ends s i (finish code (dataDone bs d cs s))

theorem ends_init (s : State) : Ends s .init (initCommand s) := by
  unfold initCommand
  split
  · exact .binding _ false .short fun _ => rfl
  · exact .binding _ true (modeOfExt s.cfg.ext) (by simp)

theorem ends_seal (s : State) : Ends s .sealCmd (sealCommand Config.params s) := by
  rcases sealCommand_cases Config.params s with
    ⟨code, _, h⟩ | ⟨hinst, h⟩ | ⟨_, h⟩ | ⟨⟨hinst, _⟩, _, hd, _, h⟩
  · exact h ▸ .result _ code (by simp)
  · exact h ▸ .faulted _ (.inl rfl) hinst
  · exact h.symm ▸ .waiting _ (.inl rfl)
  · obtain ⟨bs, d, cs, hlen, hdata⟩ := sealData_eq Config.params s params_lanes_pos
    have hcap := parametersAreLegal.dCap_ge
    rw [h, hdata]
    exact .data _ _ bs d cs (.inl rfl) hinst (by unfold tagBytes at hlen; omega)

theorem ends_open (s : State) : Ends s .openCmd (openCommand Config.params s) := by
  rcases openCommand_cases Config.params s with
    ⟨code, hcode, h⟩ | ⟨hinst, h⟩ | ⟨_, h⟩ | ⟨⟨hinst, _⟩, _, hd, hlong, _, h⟩
  · exact h ▸ .result _ code fun _ => hcode
  · exact h ▸ .faulted _ (.inr rfl) hinst
  · exact h.symm ▸ .waiting _ (.inr rfl)
  · obtain ⟨code, bs, d, cs, hlen, hdata⟩ := openData_eq Config.params s params_lanes_pos hlong
    rw [h, hdata]
    exact .data _ code bs d cs (.inr rfl) hinst (hlen.trans hd)

theorem ends_of_exec (i : Instr) (s t : State) (h : exec i s = .next t) : Ends s i t := by
  cases i <;> cases h
  case nop => exact .result _ _ (by simp)
  case init => exact ends_init s
  case sealCmd => exact ends_seal s
  case openCmd => exact ends_open s
  case zeroize => exact .zeroized
  case illegal => exact .result _ _ (by simp)

/-! ### What the commands leave -/

theorem read_dataDone_of_lt (bs : List Byte) (d : Word) (cs : List PortCall) (s : State) (a : Nat) (ha : a < dBase) :
    (dataDone bs d cs s).mem.read a = s.mem.read a := by
  have hread := Memory.read_writeBytes s.mem dBase bs a
  rwa [if_neg (by omega)] at hread

/-- Settles O19, by the ways a command can end: only ZEROIZE and the data paths write anything but STATUS, and the data paths
write from DBUF on. -/
theorem commandsLeaveTheirInputs : Obligations.CommandsLeaveTheirInputs := by
  intro i s t h
  cases ends_of_exec i s t h with
  | result _ code hopen => simp
  | binding code valid mode hmode => simp
  | zeroized => exact ⟨rfl, rfl, by simp, by simp⟩
  | faulted _ hi hinst => simp
  | waiting _ hi => simp
  | data _ code bs d cs hi hinst hlen =>
    refine ⟨rfl, rfl, fun _ => ⟨rfl, rfl, fun a ha => read_dataDone_of_lt bs d cs s a ha⟩, ?_⟩
    rcases hi with rfl | rfl <;> simp

end Sys2Proof.Proofs
end

section

/-! The bus: bytes and lanes of a word, the region an access reaches, and what aligned accesses do to registers and buffers
(rules R18, R40 to R46). -/

namespace Sys2Proof.Proofs

open Sys2Proof.Machine

/-! ### Bytes and lanes of a word (rules R43, R44) -/

theorem word_eq_of_bytes (x y : Word) (h : ∀ k < 4, x.extractLsb' (8 * k) 8 = y.extractLsb' (8 * k) 8) : x = y := by
  apply BitVec.eq_of_getLsbD_eq
  intro i hi
  have hbyte := congrArg (fun b : Byte => b.getLsbD (i % 8)) (h (i / 8) (by omega))
  have hmod : i % 8 < 8 := Nat.mod_lt _ (by decide)
  simpa [BitVec.getLsbD_extractLsb', hmod, Nat.div_add_mod] using hbyte

/-- Bit `i` of a register lies in a lane that a write of `n` bytes at `off` reaches. -/
def InLane (off n i : Nat) : Prop := 8 * (off % 4) ≤ i ∧ i < 8 * (off % 4) + 8 * n

theorem laneMask_getLsbD (off n i : Nat) (hi : i < 32) : (laneMask off n).getLsbD i = true ↔ InLane off n i := by
  rw [laneMask, BitVec.getLsbD_shiftLeft, BitVec.getLsbD_ofNat, Nat.testBit_two_pow_sub_one]
  simp only [Bool.and_eq_true, Bool.not_eq_true', decide_eq_true_eq, decide_eq_false_iff_not, InLane]
  omega

theorem laneWord_getLsbD (off n i : Nat) (v : Word) (hi : i < 32) :
    (laneWord off n v).getLsbD i = true ↔ InLane off n i ∧ v.getLsbD (i - 8 * (off % 4)) = true := by
  rw [laneWord, BitVec.getLsbD_and, Bool.and_eq_true, laneMask_getLsbD off n i hi, BitVec.getLsbD_shiftLeft, and_comm]
  refine and_congr_right fun hlane => ?_
  have hlow : ¬i < 8 * (off % 4) := not_lt.mpr hlane.1
  simp only [hi, hlow, decide_true, decide_false, Bool.not_false, Bool.and_true, Bool.true_and]

theorem mergeLanes_getLsbD_of_inLane (old v : Word) (off n i : Nat) (hi : i < 32) (hlane : InLane off n i) :
    (mergeLanes old off n v).getLsbD i = v.getLsbD (i - 8 * (off % 4)) := by
  have hmask : (laneMask off n).getLsbD i = true := (laneMask_getLsbD off n i hi).mpr hlane
  have hword : (laneWord off n v).getLsbD i = v.getLsbD (i - 8 * (off % 4)) :=
    Bool.eq_iff_iff.mpr ((laneWord_getLsbD off n i v hi).trans (and_iff_right hlane))
  rw [mergeLanes, BitVec.getLsbD_or, BitVec.getLsbD_and, BitVec.getLsbD_not, hmask, hword, Bool.not_true, Bool.and_false,
    Bool.and_false, Bool.false_or]

theorem mergeLanes_getLsbD_of_not_inLane (old v : Word) (off n i : Nat) (hi : i < 32) (hlane : ¬InLane off n i) :
    (mergeLanes old off n v).getLsbD i = old.getLsbD i := by
  have hmask : (laneMask off n).getLsbD i = false :=
    Bool.eq_false_iff.mpr fun h => hlane ((laneMask_getLsbD off n i hi).mp h)
  have hword : (laneWord off n v).getLsbD i = false :=
    Bool.eq_false_iff.mpr fun h => hlane ((laneWord_getLsbD off n i v hi).mp h).1
  rw [mergeLanes, BitVec.getLsbD_or, BitVec.getLsbD_and, BitVec.getLsbD_not, hmask, hword, decide_eq_true hi,
    Bool.not_false, Bool.and_true, Bool.and_true, Bool.or_false]

/-- The low byte of a register is written exactly by a write that reaches byte 0. -/
theorem inLane_low_bit (off n i : Nat) (hn : 0 < n) (hi : i < 8) : InLane off n i ↔ off % 4 = 0 := by
  unfold InLane
  omega

theorem laneWord_low_bit (off n i : Nat) (v : Word) (hn : 0 < n) (hi : i < 8) :
    (laneWord off n v).getLsbD i = (off % 4 == 0 && v.getLsbD i) := by
  rw [Bool.eq_iff_iff, laneWord_getLsbD off n i v (by omega), inLane_low_bit off n i hn hi, Bool.and_eq_true, beq_iff_eq]
  refine and_congr_right fun hoff => ?_
  rw [hoff]
  rfl

theorem mergeLanes_low_bit (old v : Word) (off n i : Nat) (hn : 0 < n) (hi : i < 8) :
    (mergeLanes old off n v).getLsbD i = if off % 4 = 0 then v.getLsbD i else old.getLsbD i := by
  have hlane := inLane_low_bit off n i hn hi
  split
  · rename_i hoff
    rw [mergeLanes_getLsbD_of_inLane old v off n i (by omega) (hlane.mpr hoff), hoff]
    rfl
  · rename_i hoff
    exact mergeLanes_getLsbD_of_not_inLane old v off n i (by omega) (mt hlane.mp hoff)

/-- A word write replaces the whole register. -/
theorem mergeLanes_word (old v : Word) (off : Nat) (hoff : off % 4 = 0) : mergeLanes old off 4 v = v := by
  apply BitVec.eq_of_getLsbD_eq
  intro i hi
  rw [mergeLanes_getLsbD_of_inLane old v off 4 i hi (by unfold InLane; omega), hoff]
  rfl

/-! ### Alignment -/

theorem size_bytes_pos (size : Size) : 0 < size.bytes := by
  cases size <;> decide

theorem size_bytes_le_four (size : Size) : size.bytes ≤ 4 := by
  cases size <;> decide

theorem size_bytes_cases (size : Size) : size.bytes = 1 ∨ size.bytes = 2 ∨ size.bytes = 4 := by
  cases size <;> decide

/-- An aligned access stays in one word of the window. -/
theorem add_div_mod_four (size : Size) (off k : Nat) (hal : off % size.bytes = 0) (hk : k < size.bytes) :
    (off + k) / 4 = off / 4 ∧ (off + k) % 4 = off % 4 + k := by
  rcases size_bytes_cases size with h | h | h <;> rw [h] at hal hk <;> omega

/-! ### Regions -/

theorem regAt_of_ge (w : Nat) (h : 12 ≤ w) : regAt w = .reserved := by
  obtain ⟨k, rfl⟩ := Nat.exists_eq_add_of_le' h
  rfl

theorem regAt_of_lt (w : Nat) (h : w < 12) : ∃ r, regAt w = .reg r := by
  interval_cases w <;> exact ⟨_, rfl⟩

theorem eq_four_of_regAt_ctrl (w : Nat) (h : regAt w = .reg .ctrl) : w = 4 := by
  have hsmall : ∀ w < 12, regAt w = .reg .ctrl → w = 4 := by decide
  rcases Nat.lt_or_ge w 12 with hw | hw
  · exact hsmall w hw h
  · simp [regAt_of_ge w hw] at h

theorem regionOf_registers (P : Config.Params) (off : Nat) (h : off < 0x100) : regionOf P off = regAt (off / 4) := by
  unfold regionOf nonceBase
  rw [if_pos (by omega), if_neg (by omega)]

theorem regionOf_reserved (P : Config.Params) (off : Nat)
    (h : (0x030 ≤ off ∧ off < 0x100) ∨ (0x118 ≤ off ∧ off < 0x1000)) : regionOf P off = .reserved := by
  unfold regionOf nonceBase nonceBytes
  rw [if_pos (by omega), if_neg (by omega), regAt_of_ge _ (by omega)]

theorem regionOf_of_inBuffer (P : Config.Params) (off : Nat) (h : InBuffer P off) :
    regionOf P off = .nonce ∨ regionOf P off = .adbuf ∨ regionOf P off = .dbuf := by
  unfold regionOf
  rcases h with hnonce | had | hd
  · rw [if_pos (by simp only [nonceBase, nonceBytes] at hnonce; omega), if_pos hnonce]
    exact .inl rfl
  · rw [if_neg (by simp only [adBase] at had; omega), if_pos had]
    exact .inr (.inl rfl)
  · rw [if_neg (by simp only [dBase] at hd; omega), if_pos hd]
    split
    · exact .inr (.inl rfl)
    · exact .inr (.inr rfl)

theorem inBuffer_of_regionOf (P : Config.Params) (off : Nat)
    (h : regionOf P off = .nonce ∨ regionOf P off = .adbuf ∨ regionOf P off = .dbuf) : InBuffer P off := by
  unfold regionOf at h
  unfold InBuffer
  split_ifs at h with hpage hnonce had hd
  · exact .inl hnonce
  · rcases Nat.lt_or_ge (off / 4) 12 with hw | hw
    · obtain ⟨r, hr⟩ := regAt_of_lt _ hw
      simp [hr] at h
    · simp [regAt_of_ge _ hw] at h
  · exact .inr (.inl had)
  · exact .inr (.inr hd)
  · simp at h

/-- The bytes of one word of the window lie in one region, for the sizes are multiples of four (rule R7). -/
theorem regionOf_congr (P : Config.Params) (hP : P.Legal) (off off' : Nat) (h : off' / 4 = off / 4) :
    regionOf P off' = regionOf P off := by
  obtain ⟨a, ha⟩ := hP.adCap_dvd
  obtain ⟨d, hd⟩ := hP.dCap_dvd
  unfold regionOf nonceBase nonceBytes adBase dBase
  rw [h, ha, hd]
  exact if_congr (by omega) (if_congr (by omega) rfl rfl) (if_congr (by omega) rfl (if_congr (by omega) rfl rfl))

theorem inBuffer_congr (P : Config.Params) (hP : P.Legal) (off off' : Nat) (h : off' / 4 = off / 4)
    (hin : InBuffer P off) : InBuffer P off' := by
  apply inBuffer_of_regionOf
  rw [regionOf_congr P hP off off' h]
  exact regionOf_of_inBuffer P off hin

theorem regionOf_of_word (P : Config.Params) (off w : Nat) (r : Reg) (hw : off / 4 = w) (hr : regAt w = .reg r)
    (hpage : off < 0x100) : regionOf P off = .reg r := by
  rw [regionOf_registers P off hpage, hw, hr]

/-! ### Aligned accesses -/

theorem regionOf_ne_unmapped_of_inBuffer (P : Config.Params) (off : Nat) (h : InBuffer P off) :
    regionOf P off ≠ .unmapped := by
  rcases regionOf_of_inBuffer P off h with h | h | h <;> simp [h]

theorem perform_read_aligned (P : Config.Params) (off : Offset) (size : Size) (s : State)
    (hal : off.toNat % size.bytes = 0) (hmap : regionOf P off.toNat ≠ .unmapped) :
    perform P (.read off size) s = respond (okay (readData P s off.toNat size.bytes)) s :=
  perform_read P off size s (by simp [Access.erroneous, Access.aligned, Access.offset, Access.bytes, hal, hmap])

theorem perform_write_aligned (P : Config.Params) (off : Offset) (size : Size) (v : Word) (s : State)
    (hal : off.toNat % size.bytes = 0) (hmap : regionOf P off.toNat ≠ .unmapped) :
    perform P (.write off size v) s = respond (okay 0#32) (writeAt P off.toNat size.bytes v s) :=
  perform_write P off size v s (by simp [Access.erroneous, Access.aligned, Access.offset, Access.bytes, hal, hmap])

theorem mod_bytes_of_aligned (off : Offset) (size : Size) (v : Word) (hal : (Access.write off size v).aligned = true) :
    off.toNat % size.bytes = 0 := by
  simpa [Access.aligned, Access.offset, Access.bytes] using hal

theorem perform_writeReg (P : Config.Params) (off : Offset) (size : Size) (v : Word) (s : State) (r : Reg)
    (hreg : regionOf P off.toNat = .reg r) (hal : off.toNat % size.bytes = 0) :
    perform P (.write off size v) s = respond (okay 0#32) (writeReg r off.toNat size.bytes v s) := by
  rw [perform_write_aligned P off size v s hal (by simp [hreg])]
  simp only [writeAt, hreg]

theorem writeAt_of_inBuffer (P : Config.Params) (off n : Nat) (v : Word) (s : State) (h : InBuffer P off) :
    writeAt P off n v s = { s with mem := s.mem.writeBytes off (writeLanes v n) } := by
  rcases regionOf_of_inBuffer P off h with h | h | h <;> simp only [writeAt, h]

/-! ### What reads return (rule R43) -/

theorem byteAt_of_inBuffer (P : Config.Params) (s : State) (off : Nat) (h : InBuffer P off) :
    byteAt P s off = s.mem.read off := by
  rcases regionOf_of_inBuffer P off h with h | h | h <;> simp only [byteAt, h]

theorem byteAt_of_reg (P : Config.Params) (s : State) (off : Nat) (r : Reg) (h : regionOf P off = .reg r) :
    byteAt P s off = byteOf (regValue P s r) (off % 4) := by
  simp only [byteAt, h]

theorem byteAt_of_reserved (P : Config.Params) (s : State) (off : Nat) (h : regionOf P off = .reserved) :
    byteAt P s off = 0#8 := by
  simp only [byteAt, h]

/-- The bytes an aligned access finds in a register are the addressed bytes of the register's word. -/
theorem byteAt_add_of_reg (P : Config.Params) (hP : P.Legal) (s : State) (off k : Nat) (size : Size) (r : Reg)
    (hreg : regionOf P off = .reg r) (hal : off % size.bytes = 0) (hk : k < size.bytes) :
    byteAt P s (off + k) = byteOf (regValue P s r) (off % 4 + k) := by
  obtain ⟨hword, hbyte⟩ := add_div_mod_four size off k hal hk
  rw [byteAt_of_reg P s (off + k) r ((regionOf_congr P hP off (off + k) hword).trans hreg), hbyte]

theorem readData_eq_zero (P : Config.Params) (s : State) (off n : Nat) (h : ∀ k < n, byteAt P s (off + k) = 0#8) :
    readData P s off n = 0#32 := by
  induction n with
  | zero => rfl
  | succ n ih =>
    rw [readData, ih fun k hk => h k (by omega), h n (by omega)]
    simp

theorem readData_reg_word (P : Config.Params) (hP : P.Legal) (s : State) (off : Nat) (r : Reg)
    (hreg : regionOf P off = .reg r) (hal : off % 4 = 0) : readData P s off 4 = regValue P s r := by
  apply word_eq_of_bytes
  intro k hk
  rw [readData_byte P s off 4 k le_rfl hk, if_pos hk, byteAt_add_of_reg P hP s off k .word r hreg hal hk, hal,
    Nat.zero_add]
  rfl

theorem perform_readReg_word (P : Config.Params) (hP : P.Legal) (off : Offset) (s : State) (r : Reg)
    (hreg : regionOf P off.toNat = .reg r) (hal : off.toNat % 4 = 0) :
    perform P (.read off .word) s = respond (okay (regValue P s r)) s := by
  rw [perform_read_aligned P off .word s hal (by simp [hreg])]
  exact congrArg (fun w => respond (okay w) s) (readData_reg_word P hP s off.toNat r hreg hal)

end Sys2Proof.Proofs
end

section

/-! What a bus write can do, told once, and the invariant of the machine: it holds at reset and every move keeps it. -/

namespace Sys2Proof.Proofs

open Sys2Proof.Machine

/-! ### Everything an aligned write can do -/

/-- The ways a write of `n` bytes of `v` at `off` can go (rules R18 to R33, R41). -/
inductive Writes (P : Config.Params) (off n : Nat) (v : Word) (s : State) : State → Prop where
  /-- A host register other than STATUS, CMD and CTRL, or an offset that ignores writes. -/
  | registers (c : Cfg) (a d : Word) (l : BitVec 8) :
    Writes P off n v s { s with cfg := c, adLen := a, dLen := d, nonceLen := l }
  | status (w : Word) : Writes P off n v s { s with status := s.status.cleared w }
  | command : Writes P off n v s (cmdWrite v s)
  | reset (hoff : off = 0x010) (hbit : v.getLsbD 0 = true) : Writes P off n v s (resetBlock s)
  | buffer (hin : InBuffer P off) : Writes P off n v s { s with mem := s.mem.writeBytes off (writeLanes v n) }

theorem div_four_of_regionOf_ctrl (P : Config.Params) (off : Nat) (h : regionOf P off = .reg .ctrl) : off / 4 = 4 := by
  unfold regionOf at h
  split_ifs at h with hpage hnonce
  exact eq_four_of_regAt_ctrl (off / 4) h

theorem writes_writeReg (P : Config.Params) (off n : Nat) (v : Word) (s : State) (r : Reg) (hn : 0 < n)
    (hreg : regionOf P off = .reg r) : Writes P off n v s (writeReg r off n v s) := by
  have hnothing : Writes P off n v s s := .registers s.cfg s.adLen s.dLen s.nonceLen
  cases r with
  | cfg => exact .registers _ s.adLen s.dLen s.nonceLen
  | adLen => exact .registers s.cfg _ s.dLen s.nonceLen
  | dLen => exact .registers s.cfg s.adLen _ s.nonceLen
  | nonceLen => exact .registers s.cfg s.adLen s.dLen _
  | status => exact .status _
  | cmd =>
    simp only [writeReg]
    split
    · exact .command
    · exact hnothing
  | ctrl =>
    simp only [writeReg]
    split
    · rename_i hbit
      rw [laneWord_low_bit off n 0 v hn (by decide), Bool.and_eq_true, beq_iff_eq] at hbit
      obtain ⟨hbyte, hbit⟩ := hbit
      have hword := div_four_of_regionOf_ctrl P off hreg
      exact .reset (by omega) hbit
    · exact hnothing
  | _ => exact hnothing

theorem writes_writeAt (P : Config.Params) (off n : Nat) (v : Word) (s : State) (hn : 0 < n) :
    Writes P off n v s (writeAt P off n v s) := by
  have hnothing : Writes P off n v s s := .registers s.cfg s.adLen s.dLen s.nonceLen
  unfold writeAt
  split
  case h_1 r hreg => exact writes_writeReg P off n v s r hn hreg
  case h_2 => exact hnothing
  case h_3 h => exact .buffer (inBuffer_of_regionOf P off (.inl h))
  case h_4 h => exact .buffer (inBuffer_of_regionOf P off (.inr (.inl h)))
  case h_5 h => exact .buffer (inBuffer_of_regionOf P off (.inr (.inr h)))
  case h_6 => exact hnothing

/-! ### The invariant at reset and after each move of the environment -/

/-- Settles O56: nothing is stored, set, latched or waiting after reset. -/
theorem invariantHoldsAtReset : Obligations.InvariantHoldsAtReset where
  memCanonical := Memory.wf_nil
  memInBuffers := by simp [State.reset]
  scrubbed := ⟨rfl, rfl, rfl, rfl⟩
  noInstanceShort := fun _ => rfl
  faultLocked := by simp [State.reset]
  idleLatch := fun _ => rfl
  busyNotDone := fun _ => rfl
  authOkMeans := by simp [State.reset]
  portHeld := by simp [State.reset, Env.start]

section
variable {s : State} (hs : Invariant s)
include hs

theorem invariant_setEnv (e : Env) (hport : ∀ a, e.port = some a → heldRegion (regionOf Config.params a.offset) = true) :
    Invariant (s.setEnv e) := { hs with portHeld := hport }

theorem invariant_respond (r : Response) : Invariant (respond r s) := { hs with }

theorem invariant_resetBlock : Invariant (resetBlock s) := { invariantHoldsAtReset with portHeld := hs.portHeld }

theorem invariant_cmdWrite (w : Word) : Invariant (cmdWrite w s) := by
  rcases cmdWrite_cases w s with ⟨_, h⟩ | ⟨hfault, hbusy, h⟩ | ⟨hfault, hbusy, h⟩ <;> rw [h]
  · exact hs
  · exact { hs with }
  · exact {
      hs with
      faultLocked := fun hf => absurd (hfault.symm.trans hf) (by decide)
      idleLatch := fun hb => absurd hb (by simp [Status.accepted])
      busyNotDone := fun _ => rfl }

/-- An aligned write that starts in a buffer stays in it. -/
theorem invariant_bufferWrite (off : Nat) (size : Size) (v : Word) (hin : InBuffer Config.params off)
    (hal : off % size.bytes = 0) :
    Invariant { s with mem := s.mem.writeBytes off (writeLanes v size.bytes) } := by
  refine { hs with memCanonical := Memory.wf_writeBytes _ _ _ hs.memCanonical, memInBuffers := fun c hc => ?_ }
  rcases Memory.mem_writeBytes _ _ _ c hc with ⟨hlo, hhi⟩ | hold
  · have hlen : (writeLanes v size.bytes).length = size.bytes := by simp [writeLanes]
    have hword := (add_div_mod_four size off (c.1 - off) hal (by omega)).1
    rw [Nat.add_sub_cancel' hlo] at hword
    exact inBuffer_congr _ parametersAreLegal off c.1 hword hin
  · exact hs.memInBuffers c hold

theorem invariant_writeAt (off : Nat) (size : Size) (v : Word) (hal : off % size.bytes = 0) :
    Invariant (writeAt Config.params off size.bytes v s) := by
  have hwrites := writes_writeAt Config.params off size.bytes v s (size_bytes_pos size)
  generalize writeAt Config.params off size.bytes v s = t at hwrites ⊢
  cases hwrites with
  | registers c a d l => exact { hs with }
  | status w => exact { hs with busyNotDone := fun hb => by simp [Status.cleared, hs.busyNotDone hb] }
  | command => exact invariant_cmdWrite hs v
  | reset hoff hbit => exact invariant_resetBlock hs
  | buffer hin => exact invariant_bufferWrite hs off size v hin hal

theorem invariant_perform (a : Access) : Invariant (perform Config.params a s) := by
  rcases perform_cases Config.params a s with ⟨_, h⟩ | ⟨off, size, _, h⟩ | ⟨off, size, v, rfl, hok, h⟩ <;> rw [h]
  · exact invariant_respond hs _
  · exact invariant_respond hs _
  · have hal : off.toNat % size.bytes = 0 := by
      simp only [Access.erroneous, Bool.or_eq_false_iff, Bool.not_eq_false'] at hok
      exact mod_bytes_of_aligned off size v hok.1
    exact invariant_respond (invariant_writeAt hs off.toNat size v hal) _

end

/-! ### The invariant after the engine's turn -/

/-- What a command must leave for `finish(code)` to restore the invariant: everything the invariant says apart from the
result fields and the latch, which `finish` sets. -/
structure ReadyToFinish (code : ErrCode) (s : State) : Prop where
  memCanonical : s.mem.wf
  memInBuffers : ∀ c ∈ s.mem, InBuffer Config.params c.1
  scrubbed : Scrubbed s
  noInstanceShort : s.status.instValid = false → s.status.mode = .short
  noFault : s.status.fault = false
  authenticated : s.pendOpc = 3#32 → code = .ok → s.status.instValid = true
  portHeld : ∀ a, s.env.port = some a → heldRegion (regionOf Config.params a.offset) = true

theorem ReadyToFinish.invariant {code : ErrCode} {s : State} (hs : ReadyToFinish code s) : Invariant (finish code s) := {
  hs with
  faultLocked := fun hf => absurd (hs.noFault.symm.trans hf) (by decide)
  idleLatch := fun _ => rfl
  busyNotDone := fun hb => absurd hb (by simp [Status.finished])
  authOkMeans := fun hauth => by
    simp only [finish_status, Status.finished, Bool.and_eq_true, beq_iff_eq] at hauth
    exact ⟨hauth.2, hs.authenticated hauth.1 hauth.2⟩ }

theorem invariant_faultEntry {s : State} (hs : Invariant s) (hinst : s.status.instValid = true) :
    Invariant (raiseInvalidNonceSize s) := {
  hs with
  faultLocked := fun _ => ⟨rfl, rfl, hinst⟩
  idleLatch := fun _ => rfl
  busyNotDone := fun hb => absurd hb (by simp [Status.faulted])
  authOkMeans := fun hauth => absurd hauth (by simp [Status.faulted]) }

section
variable {s : State} (hs : Invariant s) (hbusy : s.status.busy = true)
include hs hbusy

theorem no_fault_of_busy : s.status.fault = false := by
  by_contra hfault
  have hidle := (hs.faultLocked (by simpa using hfault)).1
  simp [hidle] at hbusy

theorem readyToFinish_dataDone (code : ErrCode) (bs : List Byte) (d : Word) (cs : List PortCall)
    (hinst : s.status.instValid = true) (hlen : bs.length ≤ Config.params.dCap) :
    ReadyToFinish code (dataDone bs d cs s) :=
  have hfault : s.status.fault = false := no_fault_of_busy hs hbusy
  { hs with
    memCanonical := Memory.wf_writeBytes _ _ _ hs.memCanonical
    memInBuffers := fun c hc => by
      rcases Memory.mem_writeBytes _ _ _ c hc with hnew | hold
      · exact .inr (.inr (by omega))
      · exact hs.memInBuffers c hold
    scrubbed := ⟨rfl, rfl, rfl, rfl⟩
    noFault := hfault
    authenticated := fun _ _ => hinst }

theorem invariant_zeroized (hpend : s.pendOpc ≠ 3#32) : Invariant (zeroizeCommand Config.params s) :=
  have hfault : s.status.fault = false := no_fault_of_busy hs hbusy
  ReadyToFinish.invariant {
    hs with
    memCanonical := Memory.wf_clear _ _ _ (Memory.wf_clear _ _ _ (Memory.wf_clear _ _ _ hs.memCanonical))
    memInBuffers := fun c hc =>
      hs.memInBuffers c (Memory.mem_clear _ _ _ c (Memory.mem_clear _ _ _ c (Memory.mem_clear _ _ _ c hc)))
    noFault := hfault
    authenticated := fun h => absurd h hpend }

/-- However the latched command ends, the invariant holds again. -/
theorem invariant_of_ends (t : State) (h : Ends s (decodeWord s.pendOpc) t) : Invariant t := by
  have hfault := no_fault_of_busy hs hbusy
  have hopen : s.pendOpc = 3#32 → decodeWord s.pendOpc = .openCmd := fun hw => by rw [hw]; rfl
  generalize decodeWord s.pendOpc = i at h hopen
  cases h with
  | result _ code hcode =>
    exact ReadyToFinish.invariant
      { hs with noFault := hfault, authenticated := fun hw hok => absurd hok (hcode (hopen hw)) }
  | binding code valid mode hmode =>
    exact ReadyToFinish.invariant
      { hs with noInstanceShort := hmode, noFault := hfault, authenticated := fun hw => absurd (hopen hw) (by simp) }
  | zeroized => exact invariant_zeroized hs hbusy fun hw => absurd (hopen hw) (by simp)
  | faulted _ hi hinst => exact invariant_faultEntry hs hinst
  | waiting _ hi => exact hs
  | data _ code bs d cs hi hinst hlen => exact (readyToFinish_dataDone hs hbusy code bs d cs hinst hlen).invariant

end

/-- Settles O57, by what a step can be: a reset, a move of the environment, the end of a command, or a bus access. -/
theorem everyStepKeepsTheInvariant : Obligations.EveryStepKeepsTheInvariant := by
  intro s t hs hstep
  rcases turn_cases s with
    ⟨rest, _, _, hturn⟩ | ⟨e, _, _, hport, hturn⟩ | ⟨e, _, _, _, _, hport, _, hbusy, hturn⟩ |
    ⟨a, e, _, _, hheld, hport, hturn⟩ | ⟨a, e, _, _, _, hport, hturn⟩
  case inr.inr.inl =>
    rw [step_of_engine s _ hturn] at hstep
    have henv := invariant_setEnv hs e (hport ▸ hs.portHeld)
    exact invariant_of_ends henv hbusy t (ends_of_exec _ _ _ hstep)
  all_goals
    rw [step_of_moved s _ hturn] at hstep
    injection hstep with hstep
    subst hstep
  · have hpop : Invariant (popEvent rest s) := invariant_setEnv hs _ hs.portHeld
    exact invariant_resetBlock hpop
  · exact invariant_setEnv hs e (hport ▸ hs.portHeld)
  · refine invariant_setEnv hs e fun w hw => ?_
    obtain rfl : a = w := Option.some.inj (hport.symm.trans hw)
    exact (Bool.and_eq_true_iff.mp hheld).2
  · exact invariant_perform (invariant_setEnv hs e (by simp [hport])) a

end Sys2Proof.Proofs
end

section

/-! What a step leaves of STATUS: only the engine and a reset touch the result fields, INST_VALID and MODE. -/

namespace Sys2Proof.Proofs

open Sys2Proof.Machine

/-- An access that does not reset the block changes no field of STATUS but BUSY, DONE and BOVR (rules R22, R63). -/
theorem perform_status (P : Config.Params) (a : Access) (s : State) (hsoft : isSoftReset a = false) :
    ∃ busy done bovr, (perform P a s).status = { s.status with busy := busy, done := done, bovr := bovr } := by
  rcases perform_cases P a s with ⟨_, h⟩ | ⟨off, size, _, h⟩ | ⟨off, size, v, rfl, _, h⟩ <;>
    rw [h, respond_status]
  · exact ⟨_, _, _, rfl⟩
  · exact ⟨_, _, _, rfl⟩
  · have hwrites := writes_writeAt P off.toNat size.bytes v s (size_bytes_pos size)
    generalize writeAt P off.toNat size.bytes v s = t at hwrites ⊢
    cases hwrites with
    | registers c a d l => exact ⟨_, _, _, rfl⟩
    | status w => exact ⟨_, _, _, rfl⟩
    | command => rcases cmdWrite_cases v s with ⟨_, h⟩ | ⟨_, _, h⟩ | ⟨_, _, h⟩ <;> rw [h] <;> exact ⟨_, _, _, rfl⟩
    | reset hoff hbit =>
      rw [isSoftReset, hoff, hbit] at hsoft
      exact absurd hsoft (by decide)
    | buffer hin => exact ⟨_, _, _, rfl⟩

/-- A step that is neither the engine's nor a reset changes no field of STATUS but BUSY, DONE and BOVR. -/
theorem step_status (s t : State) (hstep : step s = .next t) (hreset : resetsNow s = false) (hengine : ¬engineMoves s) :
    ∃ busy done bovr, t.status = { s.status with busy := busy, done := done, bovr := bovr } := by
  rcases turn_cases s with
    ⟨rest, _, hnow, hturn⟩ | ⟨e, _, _, _, hturn⟩ | ⟨e, _, _, _, _, _, _, _, hturn⟩ | ⟨a, e, _, _, _, _, hturn⟩ |
    ⟨a, e, hsoft, _, _, _, hturn⟩
  · simp [hnow] at hreset
  · obtain rfl : s.setEnv e = t := by simpa [step_of_moved s _ hturn] using hstep
    exact ⟨_, _, _, rfl⟩
  · exact absurd ⟨_, hturn⟩ hengine
  · obtain rfl : s.setEnv e = t := by simpa [step_of_moved s _ hturn] using hstep
    exact ⟨_, _, _, rfl⟩
  · obtain rfl : perform Config.params a (s.setEnv e) = t := by simpa [step_of_moved s _ hturn] using hstep
    exact perform_status Config.params a (s.setEnv e) (hsoft.symm.trans hreset)

/-- Settles O36: such a step changes only BUSY, DONE and BOVR. -/
theorem resultFieldsChangeOnlyAtCompletion : Obligations.ResultFieldsChangeOnlyAtCompletion := by
  intro s t hstep hreset hengine
  obtain ⟨busy, done, bovr, hstatus⟩ := step_status s t hstep hreset hengine
  rw [hstatus]
  exact ⟨rfl, rfl, rfl, rfl, rfl⟩

/-- The engine's step runs the latched command of a busy block, in another environment. -/
theorem ends_of_engineMoves (s t : State) (hstep : step s = .next t) (hengine : engineMoves s) :
    s.status.busy = true ∧ ∃ e, Ends (s.setEnv e) (decodeWord s.pendOpc) t := by
  obtain ⟨u, hu⟩ := hengine
  rcases turn_cases s with
    ⟨_, _, _, hturn⟩ | ⟨e, _, _, _, hturn⟩ | ⟨e, _, _, _, _, _, _, hbusy, hturn⟩ | ⟨a, e, _, _, _, _, hturn⟩ |
    ⟨a, e, _, _, _, _, hturn⟩
  case inr.inr.inl =>
    rw [step_of_engine s _ hturn] at hstep
    exact ⟨hbusy, e, ends_of_exec _ _ _ hstep⟩
  all_goals
    rw [hturn] at hu
    cases hu

/-- No command but INIT touches INST_VALID or MODE (rule R75). -/
theorem ends_binding_eq {s t : State} {i : Instr} (h : Ends s i t) (hi : i ≠ .init) :
    t.status.instValid = s.status.instValid ∧ t.status.mode = s.status.mode := by
  cases h with
  | binding code valid mode hmode => exact absurd rfl hi
  | _ => exact ⟨rfl, rfl⟩

/-- Settles O37: a step that is neither a reset nor the engine's leaves both fields alone, and so does every command but
INIT. -/
theorem instanceChangesOnlyByInitOrReset : Obligations.InstanceChangesOnlyByInitOrReset := by
  intro s t hstep hchange
  by_contra hnot
  obtain ⟨hreset, hlatch⟩ := not_or.mp hnot
  have hsame : t.status.instValid = s.status.instValid ∧ t.status.mode = s.status.mode := by
    by_cases hengine : engineMoves s
    · obtain ⟨hbusy, e, hends⟩ := ends_of_engineMoves s t hstep hengine
      have hkept := ends_binding_eq hends fun hinit => hlatch ⟨hbusy, eq_one_of_decodeWord_init s.pendOpc hinit⟩
      exact hkept
    · obtain ⟨busy, done, bovr, hstatus⟩ := step_status s t hstep (by simpa using hreset) hengine
      rw [hstatus]
      exact ⟨rfl, rfl⟩
  exact hchange.elim (absurd hsame.1) (absurd hsame.2)

end Sys2Proof.Proofs
end

section

/-! The register page: what STATUS, CFG and the other registers read as, and what writes to them reach (rules R18 to R30). -/

namespace Sys2Proof.Proofs

open Sys2Proof.Machine

/-! ### The words STATUS and CFG read as -/

theorem status_flag_bit (st : Status) (i : Nat) (hi : i < 8) :
    st.toWord.getLsbD i =
      [st.busy, st.done, st.instValid, modeBit st.mode, st.authOk, st.fault, st.bovr, false].getD i false := by
  simp only [Status.toWord, BitVec.getLsbD_append]
  interval_cases i <;> simp

theorem status_high_bit (st : Status) (i : Nat) : st.toWord.getLsbD (8 + i) = st.errcode.bits.getLsbD i := by
  simp (disch := omega) only [Status.toWord, BitVec.getLsbD_append, Nat.sub_sub, if_neg, Nat.add_sub_cancel_left,
    BitVec.getLsbD_zero]
  exact ite_eq_left_iff.mpr fun hi => (BitVec.getLsbD_of_ge _ i (by omega)).symm

theorem modeBit_eq_true (m : NonceMode) : modeBit m = true ↔ m = .extended := by
  cases m <;> decide

theorem cfg_ext_bit (c : Cfg) : c.toWord.getLsbD 0 = c.ext := by
  simp only [Cfg.toWord, BitVec.getLsbD_append]
  simp

theorem cfg_ie_bit (c : Cfg) : c.toWord.getLsbD 1 = c.ie := by
  simp only [Cfg.toWord, BitVec.getLsbD_append]
  simp

theorem cfg_high_bits (c : Cfg) : c.toWord.extractLsb' 2 30 = 0#30 := by
  apply BitVec.eq_of_getLsbD_eq
  intro i hi
  simp (disch := omega) only [Cfg.toWord, BitVec.getLsbD_extractLsb', BitVec.getLsbD_append, Nat.sub_sub, if_neg,
    BitVec.getLsbD_zero, Bool.and_false]

/-! ### STATUS -/

theorem heldNow_of_region (P : Config.Params) (s : State) (a : Access) (r : Region) (hreg : regionOf P a.offset = r)
    (hfree : heldRegion r = false) : heldNow P s a = false := by
  rw [heldNow, hreg, hfree, Bool.and_false]

/-- Settles O34, field by field of the word. -/
theorem statusReadsItsFields : Obligations.StatusReadsItsFields := by
  intro s
  have hbit := status_flag_bit s.status
  refine ⟨perform_readReg_word _ parametersAreLegal 0x00C#23 s .status rfl rfl, ?_, hbit 0 (by decide), hbit 1 (by decide),
    hbit 2 (by decide), ?_, hbit 4 (by decide), hbit 5 (by decide), hbit 6 (by decide), hbit 7 (by decide), ?_, ?_, rfl⟩
  · exact heldNow_of_region _ s _ _ rfl rfl
  · rw [hbit 3 (by decide)]
    exact modeBit_eq_true s.status.mode
  · apply BitVec.eq_of_getLsbD_eq
    intro i hi
    rw [BitVec.getLsbD_extractLsb', status_high_bit, decide_eq_true hi, Bool.true_and]
  · apply BitVec.eq_of_getLsbD_eq
    intro i hi
    rw [BitVec.getLsbD_extractLsb', show 12 + i = 8 + (4 + i) by omega, status_high_bit,
      BitVec.getLsbD_of_ge _ _ (by omega), Bool.and_false, BitVec.getLsbD_zero]

theorem cleared_laneWord (off n : Nat) (v : Word) (st : Status) (hn : 0 < n) :
    st.cleared (laneWord off n v) =
      { st with
        done := st.done && !(off % 4 == 0 && v.getLsbD 1)
        bovr := st.bovr && !(off % 4 == 0 && v.getLsbD 6) } := by
  rw [Status.cleared, laneWord_low_bit off n 1 v hn (by decide), laneWord_low_bit off n 6 v hn (by decide)]

/-- Settles O35: the lanes of a write hold its low bits exactly if it reaches byte 0. -/
theorem statusWriteClearsDoneAndBovr : Obligations.StatusWriteClearsDoneAndBovr := by
  intro s off size v hlo hhi hal
  have hreg := regionOf_of_word Config.params off.toNat 3 .status (by omega) rfl (by omega)
  have hbyte : (off.toNat % 4 == 0) = (off.toNat == 0x00C) := by
    rw [Bool.eq_iff_iff, beq_iff_eq, beq_iff_eq]
    omega
  rw [perform_writeReg _ off size v s .status hreg (mod_bytes_of_aligned off size v hal), writeReg,
    cleared_laneWord _ _ v s.status (size_bytes_pos size), hbyte]

/-! ### CFG and NONCE_LEN -/

theorem cfg_ofWord_mergeLanes (off n : Nat) (v : Word) (c : Cfg) (hn : 0 < n) :
    Cfg.ofWord (mergeLanes c.toWord off n v) =
      if off % 4 = 0 then { ext := v.getLsbD 0, ie := v.getLsbD 1 } else c := by
  rw [Cfg.ofWord, mergeLanes_low_bit _ v off n 0 hn (by decide), mergeLanes_low_bit _ v off n 1 hn (by decide), cfg_ext_bit,
    cfg_ie_bit]
  split <;> rfl

theorem setWidth_mergeLanes (off n : Nat) (v : Word) (l : BitVec 8) (hn : 0 < n) :
    (mergeLanes (l.setWidth 32) off n v).setWidth 8 = if off % 4 = 0 then v.extractLsb' 0 8 else l := by
  apply BitVec.eq_of_getLsbD_eq
  intro i hi
  rw [BitVec.getLsbD_setWidth, mergeLanes_low_bit _ v off n i hn hi]
  split
  · simp [hi]
  · simp [hi, show i < 32 by omega]

/-- Settles O50: the fields lie in the low byte of their registers, which only a write at byte 0 reaches. -/
theorem configurationWritesReachTheirFields : Obligations.ConfigurationWritesReachTheirFields := by
  intro s off size v hal
  have hal := mod_bytes_of_aligned off size v hal
  have hcfg (hw : off.toNat / 4 = 1) : perform Config.params (.write off size v) s = respond (okay 0#32)
      { s with cfg := if off.toNat % 4 = 0 then { ext := v.getLsbD 0, ie := v.getLsbD 1 } else s.cfg } := by
    rw [perform_writeReg _ off size v s .cfg (regionOf_of_word _ _ 1 .cfg hw rfl (by omega)) hal, writeReg,
      cfg_ofWord_mergeLanes _ _ v s.cfg (size_bytes_pos size)]
  have hnonce (hw : off.toNat / 4 = 7) : perform Config.params (.write off size v) s = respond (okay 0#32)
      { s with nonceLen := if off.toNat % 4 = 0 then v.extractLsb' 0 8 else s.nonceLen } := by
    rw [perform_writeReg _ off size v s .nonceLen (regionOf_of_word _ _ 7 .nonceLen hw rfl (by omega)) hal, writeReg,
      setWidth_mergeLanes _ _ v s.nonceLen (size_bytes_pos size)]
  refine ⟨fun hoff => ?_, fun hoff => ?_, fun hoff => ?_⟩
  · rw [hcfg (by omega), if_pos (by omega)]
  · rw [hnonce (by omega), if_pos (by omega)]
  · rcases hoff with hoff | hoff
    · rw [hcfg (by omega), if_neg (by omega)]
    · rw [hnonce (by omega), if_neg (by omega)]

/-! ### Registers that ignore writes -/

/-- Settles O41, register by register. -/
theorem constantRegistersReadTheirValues : Obligations.ConstantRegistersReadTheirValues := by
  intro s
  have hread := fun off r hreg hal => perform_readReg_word Config.params parametersAreLegal off s r hreg hal
  refine ⟨hread 0x000#23 .id rfl rfl, hread 0x024#23 .overhead rfl rfl, ⟨_, hread 0x028#23 .adCapR rfl rfl, ?_⟩,
    ⟨_, hread 0x02C#23 .dCapR rfl rfl, ?_⟩, fun off size v hoff hal => ?_⟩
  · exact Nat.mod_eq_of_lt (lt_of_le_of_lt parametersAreLegal.adCap_le (by decide))
  · exact Nat.mod_eq_of_lt (lt_of_le_of_lt parametersAreLegal.dCap_le (by decide))
  · have hal := mod_bytes_of_aligned off size v hal
    have hwrite := fun r hreg => perform_writeReg Config.params off size v s r hreg hal
    have hword : off.toNat / 4 = 0 ∨ off.toNat / 4 = 9 ∨ off.toNat / 4 = 10 ∨ off.toNat / 4 = 11 := by omega
    rcases hword with hw | hw | hw | hw
    · exact hwrite .id (regionOf_of_word _ _ 0 .id hw rfl (by omega))
    · exact hwrite .overhead (regionOf_of_word _ _ 9 .overhead hw rfl (by omega))
    · exact hwrite .adCapR (regionOf_of_word _ _ 10 .adCapR hw rfl (by omega))
    · exact hwrite .dCapR (regionOf_of_word _ _ 11 .dCapR hw rfl (by omega))

/-- Settles O43, by the cases of the binding. -/
theorem nonceSizeReadsTheMode : Obligations.NonceSizeReadsTheMode := by
  intro s
  have hread := perform_readReg_word Config.params parametersAreLegal 0x020#23 s .nonceSize rfl rfl
  rw [regValue, nonceSize] at hread
  refine ⟨fun hinst => ?_, fun hinst hmode => ?_, fun hinst hmode => ?_, fun off size v hlo hhi hal => ?_⟩
  · rwa [hinst] at hread
  · rwa [hinst, hmode] at hread
  · rwa [hinst, hmode] at hread
  · exact perform_writeReg _ off size v s .nonceSize (regionOf_of_word _ _ 8 .nonceSize (by omega) rfl (by omega))
      (mod_bytes_of_aligned off size v hal)

/-! ### Reserved offsets, CMD and CTRL -/

theorem perform_reserved (P : Config.Params) (hP : P.Legal) (s : State) (off : Offset) (size : Size) (v : Word)
    (hreg : regionOf P off.toNat = .reserved) (hal : off.toNat % size.bytes = 0) :
    perform P (.read off size) s = respond (okay 0#32) s ∧ perform P (.write off size v) s = respond (okay 0#32) s := by
  have hmap : regionOf P off.toNat ≠ .unmapped := by simp [hreg]
  rw [perform_read_aligned P off size s hal hmap, perform_write_aligned P off size v s hal hmap]
  constructor
  · rw [readData_eq_zero P s off.toNat size.bytes fun k hk => ?_]
    have hword := (add_div_mod_four size off.toNat k hal hk).1
    exact byteAt_of_reserved P s _ ((regionOf_congr P hP _ _ hword).trans hreg)
  · simp only [writeAt, hreg]

theorem perform_read_zeroReg (P : Config.Params) (hP : P.Legal) (s : State) (off : Offset) (size : Size) (r : Reg)
    (hreg : regionOf P off.toNat = .reg r) (hzero : regValue P s r = 0#32) (hal : off.toNat % size.bytes = 0) :
    perform P (.read off size) s = respond (okay 0#32) s := by
  rw [perform_read_aligned P off size s hal (by simp [hreg]), readData_eq_zero P s off.toNat size.bytes fun k hk => ?_]
  rw [byteAt_add_of_reg P hP s off.toNat k size r hreg hal hk, hzero]
  simp [byteOf]

/-- Settles O51: every byte of such a read is zero. -/
theorem reservedAndWriteOnlyOffsets : Obligations.ReservedAndWriteOnlyOffsets := by
  intro s off size v hal
  refine ⟨fun hoff => ?_, fun hoff => ?_, fun hoff hsize => ?_⟩
  · exact perform_reserved _ parametersAreLegal s off size v (regionOf_reserved _ _ hoff) hal
  · have hread := fun r hreg hzero => perform_read_zeroReg _ parametersAreLegal s off size r hreg hzero hal
    rcases hoff with hw | hw
    · exact hread .cmd (regionOf_of_word _ _ 2 .cmd hw rfl (by omega)) rfl
    · exact hread .ctrl (regionOf_of_word _ _ 4 .ctrl hw rfl (by omega)) rfl
  · have hnarrow : size.bytes ≠ 4 := by cases size <;> simp [Size.bytes] at hsize ⊢
    rw [perform_writeReg _ off size v s .cmd (regionOf_of_word _ _ 2 .cmd hoff rfl (by omega)) hal, writeReg,
      if_neg hnarrow]

/-! ### Reset -/

theorem perform_write_ctrl (s : State) (off : Offset) (size : Size) (v : Word) (hw : off.toNat / 4 = 4)
    (hal : off.toNat % size.bytes = 0) :
    perform Config.params (.write off size v) s = respond (okay 0#32)
      (if (off.toNat % 4 == 0 && v.getLsbD 0) = true then resetBlock s else s) := by
  rw [perform_writeReg _ off size v s .ctrl (regionOf_of_word _ _ 4 .ctrl hw rfl (by omega)) hal, writeReg,
    laneWord_low_bit _ _ 0 v (size_bytes_pos size) (by decide)]

/-- Settles O55: each reset is `resetBlock`, and a CTRL write is one exactly if it writes bit 0 as 1. -/
theorem bothResetsRestoreEveryField : Obligations.BothResetsRestoreEveryField := by
  have hreg : regionOf Config.params (0x010#23).toNat = .reg .ctrl := rfl
  refine ⟨fun s rest hsched => ?_, fun s size v hbit => ⟨heldNow_of_region _ s _ _ hreg rfl, ?_⟩,
    fun s off size v hw hal hno => ?_⟩
  · exact step_of_moved s _ (by rw [turn, hsched]; rfl)
  · rw [perform_write_ctrl s 0x010#23 size v rfl (by cases size <;> rfl), hbit]
    rfl
  · rw [perform_write_ctrl s off size v hw hal, if_neg]
    rw [Bool.and_eq_true, beq_iff_eq]
    rintro ⟨hbyte, hbit⟩
    rcases hno with hoff | hclear
    · omega
    · exact absurd (hclear.symm.trans hbit) (by decide)

/-- Settles O54, register by register. -/
theorem resetValues : Obligations.ResetValues := by
  refine ⟨fun off hoff => ?_, fun a => rfl, ⟨rfl, rfl, rfl, rfl⟩, rfl, rfl, rfl, rfl, rfl⟩
  have hread := fun off r hreg hal => perform_readReg_word Config.params parametersAreLegal off State.reset r hreg hal
  simp only [List.mem_cons, List.not_mem_nil, or_false] at hoff
  rcases hoff with rfl | rfl | rfl | rfl | rfl | rfl | rfl | rfl
  · exact hread _ .cfg rfl rfl
  · exact hread _ .cmd rfl rfl
  · exact hread _ .status rfl rfl
  · exact hread _ .ctrl rfl rfl
  · exact hread _ .adLen rfl rfl
  · exact hread _ .dLen rfl rfl
  · exact hread _ .nonceLen rfl rfl
  · exact hread _ .nonceSize rfl rfl

end Sys2Proof.Proofs
end

section

/-! What reads return after writes, and for every size (rules R43, R44, R49). -/

namespace Sys2Proof.Proofs

open Sys2Proof.Machine

/-! ### A written word reads back -/

/-- The bytes a write stores, by offset (rule R43). -/
theorem read_writeLanes (m : Memory) (off n k : Nat) (v : Word) (hk : k < n) :
    (m.writeBytes off (writeLanes v n)).read (off + k) = byteOf v k := by
  rw [Memory.read_writeBytes, if_pos (by simp [writeLanes]; omega)]
  simp [writeLanes, hk]

theorem readData_bufferWrite (P : Config.Params) (hP : P.Legal) (s : State) (m : Memory) (off : Nat) (v : Word)
    (hin : InBuffer P off) (hal : off % 4 = 0) (hmem : s.mem = m.writeBytes off (writeLanes v 4)) :
    readData P s off 4 = v := by
  apply word_eq_of_bytes
  intro k hk
  have hword := (add_div_mod_four .word off k hal hk).1
  rw [readData_byte P s off 4 k le_rfl hk, if_pos hk, byteAt_of_inBuffer P s _ (inBuffer_congr P hP off _ hword hin), hmem,
    read_writeLanes m off 4 k v hk]
  rfl

theorem bufferWord_reads_back (P : Config.Params) (hP : P.Legal) (s : State) (off : Offset) (v : Word)
    (hin : InBuffer P off.toNat) (hal : off.toNat % 4 = 0) :
    (perform P (.read off .word) (perform P (.write off .word v) s)).env.response = some (okay v) := by
  have hmap := regionOf_ne_unmapped_of_inBuffer P off.toNat hin
  rw [perform_write_aligned P off .word v s hal hmap, perform_read_aligned P off .word _ hal hmap,
    writeAt_of_inBuffer P _ _ v s hin]
  exact congrArg (fun w => some (okay w)) (readData_bufferWrite P hP _ s.mem off.toNat v hin hal rfl)

/-- A word register whose write replaces it reads back. -/
theorem registerWord_reads_back (P : Config.Params) (hP : P.Legal) (s : State) (off : Offset) (v : Word) (r : Reg)
    (hreg : regionOf P off.toNat = .reg r) (hal : off.toNat % 4 = 0)
    (hback : regValue P (respond (okay 0#32) (writeReg r off.toNat 4 v s)) r = v) :
    (perform P (.read off .word) (perform P (.write off .word v) s)).env.response = some (okay v) := by
  rw [perform_writeReg P off .word v s r hreg hal, perform_readReg_word P hP off _ r hreg hal]
  exact congrArg (fun w => some (okay w)) hback

theorem word_reads_back (s : State) (off : Offset) (v : Word)
    (hoff : InBuffer Config.params off.toNat ∨ off = 0x014#23 ∨ off = 0x018#23) (hal : off.toNat % 4 = 0) :
    (perform Config.params (.read off .word) (perform Config.params (.write off .word v) s)).env.response =
      some (okay v) := by
  rcases hoff with hin | rfl | rfl
  · exact bufferWord_reads_back _ parametersAreLegal s off v hin hal
  · exact registerWord_reads_back _ parametersAreLegal s _ v .adLen rfl rfl (mergeLanes_word s.adLen v _ rfl)
  · exact registerWord_reads_back _ parametersAreLegal s _ v .dLen rfl rfl (mergeLanes_word s.dLen v _ rfl)

/-! ### Reads of every size -/

theorem buffer_read (s : State) (off : Offset) (size : Size) (hin : InBuffer Config.params off.toNat)
    (hal : off.toNat % size.bytes = 0) :
    ∃ v : Word, perform Config.params (.read off size) s = respond (okay v) s ∧
      ∀ k < 4, v.extractLsb' (8 * k) 8 = if k < size.bytes then s.mem.read (off.toNat + k) else 0#8 := by
  refine ⟨_, perform_read_aligned _ off size s hal (regionOf_ne_unmapped_of_inBuffer _ _ hin), fun k hk => ?_⟩
  rw [readData_byte _ s _ _ k (size_bytes_le_four size) hk]
  refine ite_congr rfl (fun hlt => ?_) fun _ => rfl
  have hword := (add_div_mod_four size off.toNat k hal hlt).1
  exact byteAt_of_inBuffer _ s _ (inBuffer_congr _ parametersAreLegal _ _ hword hin)

theorem register_read (s : State) (off base : Offset) (size : Size) (hoff : off.toNat < 0x030)
    (hal : off.toNat % size.bytes = 0) (hbase : base.toNat = off.toNat - off.toNat % 4) :
    ∃ w v : Word,
      perform Config.params (.read base .word) s = respond (okay w) s ∧
      perform Config.params (.read off size) s = respond (okay v) s ∧
      ∀ k < 4, v.extractLsb' (8 * k) 8 =
        if k < size.bytes then w.extractLsb' (8 * (off.toNat % 4 + k)) 8 else 0#8 := by
  obtain ⟨r, hr⟩ := regAt_of_lt (off.toNat / 4) (by omega)
  have hreg : regionOf Config.params off.toNat = .reg r := regionOf_of_word _ _ _ r rfl hr (by omega)
  have hregBase : regionOf Config.params base.toNat = .reg r := regionOf_of_word _ _ _ r (by omega) hr (by omega)
  refine ⟨_, _, perform_readReg_word _ parametersAreLegal base s r hregBase (by omega),
    perform_read_aligned _ off size s hal (by simp [hreg]), fun k hk => ?_⟩
  rw [readData_byte _ s _ _ k (size_bytes_le_four size) hk]
  exact ite_congr rfl (fun hlt => byteAt_add_of_reg _ parametersAreLegal s _ k size r hreg hal hlt) fun _ => rfl

theorem cfg_read (s : State) :
    ∃ w : Word, perform Config.params (.read 0x004#23 .word) s = respond (okay w) s ∧
      w.getLsbD 0 = s.cfg.ext ∧ w.getLsbD 1 = s.cfg.ie ∧ w.extractLsb' 2 30 = 0#30 :=
  ⟨_, perform_readReg_word _ parametersAreLegal 0x004#23 s .cfg rfl rfl, cfg_ext_bit s.cfg, cfg_ie_bit s.cfg,
    cfg_high_bits s.cfg⟩

theorem nonceLen_read (s : State) :
    ∃ w : Word, perform Config.params (.read 0x01C#23 .word) s = respond (okay w) s ∧
      w.extractLsb' 0 8 = s.nonceLen ∧ w.extractLsb' 8 24 = 0#24 := by
  refine ⟨_, perform_readReg_word _ parametersAreLegal 0x01C#23 s .nonceLen rfl rfl, ?_, ?_⟩
  · apply BitVec.eq_of_getLsbD_eq
    intro i hi
    simp [regValue, hi, show i < 32 by omega]
  · apply BitVec.eq_of_getLsbD_eq
    intro i hi
    rw [BitVec.getLsbD_extractLsb', regValue, BitVec.getLsbD_setWidth, BitVec.getLsbD_of_ge _ _ (by omega), Bool.and_false,
      Bool.and_false, BitVec.getLsbD_zero]

/-- Settles O48: a read returns the bytes at its offsets, whatever holds them. -/
theorem wordReadsBackAsWritten : Obligations.WordReadsBackAsWritten :=
  ⟨word_reads_back,
    fun s => ⟨perform_readReg_word _ parametersAreLegal 0x014#23 s .adLen rfl rfl,
      perform_readReg_word _ parametersAreLegal 0x018#23 s .dLen rfl rfl, cfg_read s, nonceLen_read s⟩,
    buffer_read, register_read⟩

end Sys2Proof.Proofs
end

section

/-! The decoder undoes the encoder on well-formed commands, so exactly the words 0 to 4 are the five commands
(rules R43, R56, R57, R59, R65). -/

namespace Sys2Proof.Proofs

open Sys2Proof.Machine

/-! ### The bytes of a word -/

/-- The four bytes of a word, put together in their order, are the word (rule R43). -/
theorem ofBytes_byteOf (w : Word) : ofBytes (byteOf w 0) (byteOf w 1) (byteOf w 2) (byteOf w 3) = w := by
  unfold ofBytes byteOf
  rw [BitVec.extractLsb'_append_extractLsb'_eq_extractLsb' (by omega),
    BitVec.extractLsb'_append_extractLsb'_eq_extractLsb' (by omega),
    BitVec.extractLsb'_append_extractLsb'_eq_extractLsb' (by omega)]
  exact BitVec.extractLsb'_eq_self

theorem decode_wordBytes_append (w : Word) (rest : List Byte) :
    decode (wordBytes w ++ rest) = .ok (decodeWord w, rest) := by
  have hdecode : decode (wordBytes w ++ rest) =
      .ok (decodeWord (ofBytes (byteOf w 0) (byteOf w 1) (byteOf w 2) (byteOf w 3)), rest) := rfl
  rw [hdecode, ofBytes_byteOf]

/-! ### Decoding an encoding -/

/-- An illegal word with RSVD clear has OPC 5 or more, so it falls through every test of the decoder. -/
theorem decodeWord_encode_illegal (rsvd : BitVec 28) (opc : BitVec 4) (h : (Instr.illegal rsvd opc).wf = true) :
    decodeWord (encode (.illegal rsvd opc)) = .illegal rsvd opc := by
  obtain ⟨hrsvd, hopc⟩ : rsvdField (encode (.illegal rsvd opc)) = rsvd ∧ opcField (encode (.illegal rsvd opc)) = opc :=
    Laws.EncodingFields.illegal rsvd opc h
  rw [decodeWord, hrsvd, hopc]
  by_cases hclear : rsvd = 0#28
  · have hlarge : 5 ≤ opc.toNat := by simpa [Instr.wf, hclear] using h
    have hne (k : BitVec 4) (hk : k.toNat < 5) : opc ≠ k := fun heq => by subst heq; omega
    rw [if_neg (not_not.mpr hclear), if_neg (hne _ (by decide)), if_neg (hne _ (by decide)), if_neg (hne _ (by decide)),
      if_neg (hne _ (by decide)), if_neg (hne _ (by decide))]
  · rw [if_pos hclear]

theorem decodeWord_encode (i : Instr) (h : i.wf = true) : decodeWord (encode i) = i := by
  cases i with
  | illegal rsvd opc => exact decodeWord_encode_illegal rsvd opc h
  | _ => rfl

/-- Settles O3: a command is read back from its word, and its word from its bytes. -/
theorem decodingTheEncodingGivesTheCommand : Obligations.DecodingTheEncodingGivesTheCommand := by
  intro i rest h
  have hword := decodeWord_encode i h
  exact ⟨hword, by rw [decode_wordBytes_append, hword]⟩

/-! ### Which words are commands -/

theorem decodeWord_eq_iff (w : Word) (i : Instr) (h : i.wf = true) : decodeWord w = i ↔ w = encode i := by
  constructor
  · rintro rfl
    exact (encode_decodeWord w).symm
  · rintro rfl
    exact decodeWord_encode i h

/-- The word of each of the five commands is below 5 (rule R57). -/
theorem illegal_of_five_le (w : Word) (h : 5 ≤ w.toNat) : ∃ rsvd opc, decodeWord w = .illegal rsvd opc := by
  have hw := encode_decodeWord w
  cases hi : decodeWord w with
  | illegal rsvd opc => exact ⟨rsvd, opc, rfl⟩
  | _ =>
    rw [hi] at hw
    rw [← hw] at h
    exact absurd h (by decide)

theorem not_illegal_of_lt_five (w : Word) (h : w.toNat < 5) (rsvd : BitVec 28) (opc : BitVec 4) :
    decodeWord w ≠ .illegal rsvd opc := by
  obtain ⟨n, hn, rfl⟩ : ∃ n < 5, w = BitVec.ofNat 32 n := ⟨w.toNat, h, by simp⟩
  interval_cases n <;> nofun

/-- Settles O1: a word decodes to a command exactly if it is its encoding. -/
theorem onlyFiveWordsAreCommands : Obligations.OnlyFiveWordsAreCommands := by
  intro w
  refine ⟨decodeWord_eq_iff w .nop rfl, decodeWord_eq_iff w .init rfl, decodeWord_eq_iff w .sealCmd rfl,
    decodeWord_eq_iff w .openCmd rfl, decodeWord_eq_iff w .zeroize rfl, ?_, illegal_of_five_le w⟩
  rintro ⟨rsvd, opc, hillegal⟩
  by_contra hlt
  exact not_illegal_of_lt_five w (by omega) rsvd opc hillegal

end Sys2Proof.Proofs
end

section

/-! INIT binds the block for a 32-byte key and unbinds it for any other (rules R68, R88). -/

namespace Sys2Proof.Proofs

open Sys2Proof.Machine

/-- A key longer than `key_len` can count is never taken for a 32-byte key (log 7). -/
theorem ofNat_min_eq_32 (n : Nat) : BitVec.ofNat 16 (min n 65535) = 32#16 ↔ n = 32 := by
  rw [← BitVec.toNat_inj, BitVec.toNat_ofNat, BitVec.toNat_ofNat]
  omega

/-- Settles O8, by the two branches of INIT. -/
theorem initBindsOrDropsTheInstance : Obligations.InitBindsOrDropsTheInstance := by
  refine ⟨fun s w => ofNat_min_eq_32 s.env.key.length, fun s hlatched => ?_⟩
  have hne : s.pendOpc ≠ 3#32 := by
    rw [hlatched]
    decide
  constructor
  · intro hkey
    have hmode : modeOfExt s.cfg.ext = if s.cfg.ext then .extended else .short := by cases s.cfg.ext <;> rfl
    rw [exec, execInit, initCommand, if_neg (not_not.mpr hkey), hmode,
      finish_eq_completed_of_ne _ { s with status := s.status.bound true _ } hne]
    rfl
  · intro hkey
    rw [exec, execInit, initCommand, if_pos hkey,
      finish_eq_completed_of_ne _ { s with status := s.status.bound false .short } hne]
    rfl

end Sys2Proof.Proofs
end

section

/-! Refused accesses, reads, and writes to the buffers and lengths (rules R40 to R47). -/

namespace Sys2Proof.Proofs

open Sys2Proof.Machine

/-! ### Refused accesses -/

theorem erroneous_of_misaligned (P : Config.Params) (a : Access) (h : a.offset % a.bytes ≠ 0) :
    a.erroneous P = true := by
  simp [Access.erroneous, Access.aligned, h]

theorem erroneous_of_unmapped (P : Config.Params) (a : Access) (h : regionOf P a.offset = .unmapped) :
    a.erroneous P = true := by
  simp [Access.erroneous, h]

/-- Beyond the register page, what lies in no buffer is a hole of the map (rule R41). -/
theorem regionOf_unmapped (P : Config.Params) (off : Nat) (hpage : 0x1000 ≤ off) (hout : ¬InBuffer P off) :
    regionOf P off = .unmapped := by
  simp only [InBuffer, not_or] at hout
  obtain ⟨_, had, hd⟩ := hout
  rw [regionOf, if_neg (by omega), if_neg had, if_neg hd]

/-- In the register page, what lies past the registers and outside NONCE is reserved (rule R18). -/
theorem regionOf_page_reserved (P : Config.Params) (off : Nat) (hreg : 0x030 ≤ off) (hpage : off < 0x1000)
    (hout : ¬InBuffer P off) : regionOf P off = .reserved := by
  simp only [InBuffer, nonceBase, nonceBytes, not_or] at hout
  exact regionOf_reserved P off (by omega)

theorem regionOf_page_ne_unmapped (P : Config.Params) (off : Nat) (hpage : off < 0x1000) :
    regionOf P off ≠ .unmapped := by
  by_cases hreg : off < 0x030
  · obtain ⟨r, hr⟩ := regAt_of_lt (off / 4) (by omega)
    simp [regionOf_of_word P off _ r rfl hr (by omega)]
  · by_cases hin : InBuffer P off
    · exact regionOf_ne_unmapped_of_inBuffer P off hin
    · simp [regionOf_page_reserved P off (by omega) hpage hin]

theorem perform_okay (P : Config.Params) (a : Access) (s : State) (h : a.erroneous P = false) :
    ∃ r : Response, (perform P a s).env.response = some r ∧ r.okay = true := by
  rcases perform_cases P a s with ⟨herr, _⟩ | ⟨off, size, _, hread⟩ | ⟨off, size, v, _, _, hwrite⟩
  · exact absurd (herr.symm.trans h) (by decide)
  · rw [hread]
    exact ⟨_, rfl, rfl⟩
  · rw [hwrite]
    exact ⟨_, rfl, rfl⟩

/-- Settles O44: a misaligned access is erroneous, whatever its offset falls in. -/
theorem misalignedAccessIsRefused : Obligations.MisalignedAccessIsRefused := fun s off size v h =>
  ⟨perform_error _ (.read off size) s (erroneous_of_misaligned _ _ h),
    perform_error _ (.write off size v) s (erroneous_of_misaligned _ _ h)⟩

/-- Settles O45: the holes lie outside the register page and the buffers, for AD_CAP keeps ADBUF below DBUF (rule R7). -/
theorem unmappedAccessIsRefused : Obligations.UnmappedAccessIsRefused := by
  intro s a
  have had := parametersAreLegal.adCap_le
  refine ⟨fun hhole => ?_, fun hmap hal => ?_⟩
  · have hunmapped : regionOf Config.params a.offset = .unmapped :=
      regionOf_unmapped _ _ (by omega) (by unfold InBuffer nonceBase nonceBytes adBase dBase; omega)
    exact perform_error _ a s (erroneous_of_unmapped _ a hunmapped)
  · have hmapped : regionOf Config.params a.offset ≠ .unmapped := by
      rcases hmap with hpage | hbuf
      · exact regionOf_page_ne_unmapped _ _ hpage
      · exact regionOf_ne_unmapped_of_inBuffer _ _ (.inr hbuf)
    exact perform_okay _ a s (by simp [Access.erroneous, hal, hmapped])

/-- Settles O46: a read is refused or returns its data. -/
theorem readsHaveNoSideEffect : Obligations.ReadsHaveNoSideEffect := by
  intro s off size
  rcases perform_cases Config.params (.read off size) s with ⟨_, h⟩ | ⟨_, _, _, h⟩ | ⟨_, _, _, hwrite, _⟩
  · exact ⟨_, h⟩
  · exact ⟨_, h⟩
  · cases hwrite

/-! ### Writes -/

/-- Settles O47: such a write is `writeBytes` of its bytes. -/
theorem bufferWriteStoresItsBytes : Obligations.BufferWriteStoresItsBytes := by
  intro s off size v hin hal
  refine ⟨s.mem.writeBytes off.toNat (writeLanes v size.bytes), ?_, fun k hk => ?_, fun a ha => ?_⟩
  · rw [perform_write_aligned _ off size v s (mod_bytes_of_aligned off size v hal)
      (regionOf_ne_unmapped_of_inBuffer _ _ hin), writeAt_of_inBuffer _ _ _ v s hin]
  · exact read_writeLanes s.mem off.toNat size.bytes k v hk
  · have hlen : (writeLanes v size.bytes).length = size.bytes := by simp [writeLanes]
    rw [Memory.read_writeBytes, if_neg (by omega)]

/-- Byte `k` of a register after a write of `n` bytes at `off`: the written byte if addressed, else the old one. -/
theorem mergeLanes_byte (old v : Word) (off n k : Nat) (hk : k < 4) :
    (mergeLanes old off n v).extractLsb' (8 * k) 8 =
      if off % 4 ≤ k ∧ k < off % 4 + n then v.extractLsb' (8 * (k - off % 4)) 8 else old.extractLsb' (8 * k) 8 := by
  apply BitVec.eq_of_getLsbD_eq
  intro i hi
  have hlane : InLane off n (8 * k + i) ↔ off % 4 ≤ k ∧ k < off % 4 + n := by
    unfold InLane
    omega
  rw [BitVec.getLsbD_extractLsb', apply_ite (fun b : Byte => b.getLsbD i), BitVec.getLsbD_extractLsb',
    BitVec.getLsbD_extractLsb']
  split
  · rename_i hbyte
    rw [mergeLanes_getLsbD_of_inLane old v off n _ (by omega) (hlane.mpr hbyte),
      show 8 * k + i - 8 * (off % 4) = 8 * (k - off % 4) + i by omega]
  · rename_i hbyte
    rw [mergeLanes_getLsbD_of_not_inLane old v off n _ (by omega) (mt hlane.mp hbyte)]

/-- Settles O49: both registers are written by their lanes. -/
theorem narrowWriteReplacesItsBytes : Obligations.NarrowWriteReplacesItsBytes := by
  intro s off size v hal
  have hal := mod_bytes_of_aligned off size v hal
  refine ⟨fun hw => ⟨mergeLanes s.adLen off.toNat size.bytes v, ?_, fun k => mergeLanes_byte s.adLen v _ _ k⟩,
    fun hw => ⟨mergeLanes s.dLen off.toNat size.bytes v, ?_, fun k => mergeLanes_byte s.dLen v _ _ k⟩⟩
  · exact perform_writeReg _ off size v s .adLen (regionOf_of_word _ _ 5 .adLen hw rfl (by omega)) hal
  · exact perform_writeReg _ off size v s .dLen (regionOf_of_word _ _ 6 .dLen hw rfl (by omega)) hal

end Sys2Proof.Proofs
end

section

/-! Accesses while BUSY: those to held locations wait, and the others leave the inputs of the command alone (rules R49, R50,
R117). -/

namespace Sys2Proof.Proofs

open Sys2Proof.Machine

/-! ### Held locations -/

/-- The words of the register page held while BUSY are those of CFG, AD_LEN, D_LEN, NONCE_LEN and NONCE_SIZE (rule R117). -/
theorem heldRegion_regAt : ∀ w < 12, heldRegion (regAt w) = true ↔ w ∈ [1, 5, 6, 7, 8] := by decide

/-- Outside the registers and the buffers an offset is reserved or unmapped (rule R41). -/
theorem heldRegion_regionOf_elsewhere (P : Config.Params) (off : Nat) (hreg : 0x030 ≤ off) (hin : ¬InBuffer P off) :
    heldRegion (regionOf P off) = false := by
  rcases Nat.lt_or_ge off 0x1000 with hpage | hpage
  · rw [regionOf_page_reserved P off hreg hpage hin]
    rfl
  · rw [regionOf_unmapped P off hpage hin]
    rfl

theorem heldRegion_regionOf (P : Config.Params) (off : Nat) :
    heldRegion (regionOf P off) = true ↔ off / 4 ∈ [1, 5, 6, 7, 8] ∨ InBuffer P off := by
  by_cases hin : InBuffer P off
  · simp only [hin, or_true, iff_true]
    rcases regionOf_of_inBuffer P off hin with h | h | h <;> rw [h] <;> rfl
  · simp only [hin, or_false]
    rcases Nat.lt_or_ge off 0x030 with hreg | hreg
    · rw [regionOf_registers P off (by omega)]
      exact heldRegion_regAt (off / 4) (by omega)
    · simp only [heldRegion_regionOf_elsewhere P off hreg hin, Bool.false_eq_true, false_iff, List.mem_cons,
        List.not_mem_nil, or_false]
      omega

theorem heldNow_of_busy (P : Config.Params) (s : State) (a : Access) (hbusy : s.status.busy = true) :
    heldNow P s a = true ↔ a.offset / 4 ∈ [1, 5, 6, 7, 8] ∨ InBuffer P a.offset := by
  rw [heldNow, hbusy, Bool.true_and, heldRegion_regionOf]

/-! ### The turns of the port -/

theorem step_of_host (s : State) (a : Access) (rest : List Event) (hsched : s.env.sched = .host a :: rest)
    (hport : s.env.port = none) : step s = .next (issue Config.params a (popEvent rest s)) :=
  step_of_moved s _ (by simp only [turn, hsched, hport])

theorem step_of_waiting (s : State) (a : Access) (rest : List Event) (hport : s.env.port = some a)
    (hsched : s.env.sched = [] ∨ ∃ b, s.env.sched = .host b :: rest) (hfree : heldNow Config.params s a = false) :
    step s = .next (perform Config.params a { s with env := { s.env with port := none } }) := by
  have hturn : turn Config.params s = portTurn Config.params a s := by
    rcases hsched with hsched | ⟨b, hsched⟩ <;> simp only [turn, hsched, hport]
  refine step_of_moved s _ ?_
  rw [hturn, portTurn, hfree]
  rfl

theorem issue_of_held (P : Config.Params) (a : Access) (s : State) (h : heldNow P s a = true) :
    issue P a s = { s with env := { s.env with port := some a } } := by
  rw [issue, if_pos h]

theorem issue_of_free (P : Config.Params) (a : Access) (s : State) (h : heldNow P s a = false) :
    issue P a s = perform P a s := by
  rw [issue, h]
  rfl

/-- Settles O52, by who is at the port and whether the access is held. -/
theorem heldAccessesWait : Obligations.HeldAccessesWait := by
  intro s a rest
  refine ⟨fun hsched hport hbusy => ⟨fun hheld => ?_, fun hfree => ?_⟩, fun hport hidle hsched => ?_,
    fun hsched hport hidle => ?_⟩
  · rw [step_of_host s a rest hsched hport,
      issue_of_held _ a (popEvent rest s) ((heldNow_of_busy _ (popEvent rest s) a hbusy).mpr hheld)]
    rfl
  · have hfree : heldNow Config.params (popEvent rest s) a = false :=
      Bool.eq_false_iff.mpr (mt (heldNow_of_busy _ (popEvent rest s) a hbusy).mp hfree)
    rw [step_of_host s a rest hsched hport, issue_of_free _ a _ hfree]
    rfl
  · exact step_of_waiting s a rest hport hsched (heldNow_of_idle _ s a hidle)
  · rw [step_of_host s a rest hsched hport, issue_of_free _ a _ (heldNow_of_idle _ (popEvent rest s) a hidle)]
    rfl

/-! ### What a busy block leaves alone -/

/-- Two states that agree on BUSY, the latch and everything a command reads: at most DONE, BOVR and the environment differ
(rules R50, R117). -/
def OnlyFlagsChanged (s t : State) : Prop :=
  ∃ done bovr env, t = { s with status := { s.status with done := done, bovr := bovr }, env := env }

theorem onlyFlagsChanged_cmdWrite (w : Word) (s : State) (hbusy : s.status.busy = true) :
    OnlyFlagsChanged s (cmdWrite w s) := by
  rcases cmdWrite_cases w s with ⟨_, h⟩ | ⟨_, _, h⟩ | ⟨_, hidle, _⟩
  · exact ⟨_, _, _, h⟩
  · exact ⟨_, _, _, h⟩
  · exact absurd (hidle.symm.trans hbusy) (by decide)

/-- A write to a register that is not held: CMD and STATUS touch flags, CTRL resets or does nothing, the others are
read-only. -/
theorem onlyFlagsChanged_writeReg (r : Reg) (off n : Nat) (v : Word) (s : State) (hbusy : s.status.busy = true)
    (hfree : heldRegion (.reg r) = false) (hctrl : r = .ctrl → (laneWord off n v).getLsbD 0 = false) :
    OnlyFlagsChanged s (writeReg r off n v s) := by
  have hsame : OnlyFlagsChanged s s := ⟨_, _, _, rfl⟩
  cases r with
  | cmd =>
    simp only [writeReg]
    split
    · exact onlyFlagsChanged_cmdWrite v s hbusy
    · exact hsame
  | status => exact ⟨_, _, _, rfl⟩
  | ctrl =>
    rw [writeReg, hctrl rfl]
    exact hsame
  | cfg | adLen | dLen | nonceLen | nonceSize => cases hfree
  | id | overhead | adCapR | dCapR => exact hsame

theorem onlyFlagsChanged_writeAt (P : Config.Params) (off : Offset) (size : Size) (v : Word) (s : State)
    (hbusy : s.status.busy = true) (hfree : heldRegion (regionOf P off.toNat) = false)
    (hsoft : isSoftReset (.write off size v) = false) :
    OnlyFlagsChanged s (writeAt P off.toNat size.bytes v s) := by
  unfold writeAt
  split
  case h_1 r hreg =>
    refine onlyFlagsChanged_writeReg r off.toNat size.bytes v s hbusy (hreg ▸ hfree) ?_
    rintro rfl
    have hword := div_four_of_regionOf_ctrl P off.toNat hreg
    have hbyte : (off.toNat % 4 == 0) = (off.toNat == 0x010) := by
      rw [Bool.eq_iff_iff, beq_iff_eq, beq_iff_eq]
      omega
    rw [laneWord_low_bit _ _ 0 v (size_bytes_pos size) (by decide), hbyte]
    exact hsoft
  case h_2 | h_6 => exact ⟨_, _, _, rfl⟩
  case h_3 h | h_4 h | h_5 h =>
    rw [h] at hfree
    cases hfree

theorem onlyFlagsChanged_perform (P : Config.Params) (a : Access) (s : State) (hbusy : s.status.busy = true)
    (hfree : heldNow P s a = false) (hsoft : isSoftReset a = false) : OnlyFlagsChanged s (perform P a s) := by
  rcases perform_cases P a s with ⟨_, h⟩ | ⟨off, size, _, h⟩ | ⟨off, size, v, rfl, _, h⟩ <;> rw [h]
  · exact ⟨_, _, _, rfl⟩
  · exact ⟨_, _, _, rfl⟩
  · rw [heldNow, hbusy, Bool.true_and] at hfree
    obtain ⟨done, bovr, env, hwrite⟩ := onlyFlagsChanged_writeAt P off size v s hbusy hfree hsoft
    exact ⟨done, bovr, _, by rw [hwrite]; rfl⟩

theorem onlyFlagsChanged_step (s t : State) (hbusy : s.status.busy = true) (hengine : ¬engineMoves s)
    (hreset : resetsNow s = false) (hstep : step s = .next t) : OnlyFlagsChanged s t := by
  rcases turn_cases s with
    ⟨rest, _, hnow, hturn⟩ | ⟨e, _, _, _, hturn⟩ | ⟨e, _, _, _, _, _, _, _, hturn⟩ | ⟨a, e, _, _, _, _, hturn⟩ |
    ⟨a, e, hsoft, _, hfree, _, hturn⟩
  · exact absurd (hnow.symm.trans hreset) (by decide)
  · obtain rfl : s.setEnv e = t := by simpa [step_of_moved s _ hturn] using hstep
    exact ⟨_, _, _, rfl⟩
  · exact absurd ⟨_, hturn⟩ hengine
  · obtain rfl : s.setEnv e = t := by simpa [step_of_moved s _ hturn] using hstep
    exact ⟨_, _, _, rfl⟩
  · obtain rfl : perform Config.params a (s.setEnv e) = t := by simpa [step_of_moved s _ hturn] using hstep
    exact onlyFlagsChanged_perform Config.params a (s.setEnv e) hbusy hfree (hsoft.symm.trans hreset)

/-- Settles O53: such a step changes only DONE, BOVR and the environment. -/
theorem inputsAreProtectedWhileBusy : Obligations.InputsAreProtectedWhileBusy := by
  intro s t hbusy hengine hreset hstep
  obtain ⟨done, bovr, env, rfl⟩ := onlyFlagsChanged_step s t hbusy hengine hreset hstep
  exact ⟨hbusy, rfl, rfl, rfl, rfl, rfl, rfl, rfl, rfl, rfl⟩

end Sys2Proof.Proofs
end

section

/-! The encoder undoes the decoder on every word, and table words are read through the same decoder
(rules R56, R57, R59, R74). -/

namespace Sys2Proof.Proofs

/-! ### Encoding a decoding -/

/-- Only RSVD clear with OPC below 5 is not well-formed, and such a word is one of the five commands (rule R57). -/
theorem wf_of_decodeWord_illegal (w : Word) (rsvd : BitVec 28) (opc : BitVec 4)
    (h : decodeWord w = .illegal rsvd opc) : (Instr.illegal rsvd opc).wf = true := by
  by_contra hwf
  obtain ⟨hclear, hsmall⟩ : rsvd = 0#28 ∧ opc.toNat < 5 := by simpa [Instr.wf] using hwf
  have hw : cmdWord rsvd opc = w := by
    have hencode := encode_decodeWord w
    rwa [h] at hencode
  have hlt : w.toNat < 5 := by
    rw [← hw, hclear, cmdWord, BitVec.toNat_append]
    simpa using hsmall
  exact not_illegal_of_lt_five w hlt rsvd opc h

theorem wf_decodeWord (w : Word) : (decodeWord w).wf = true := by
  cases h : decodeWord w with
  | illegal rsvd opc => exact wf_of_decodeWord_illegal w rsvd opc h
  | _ => rfl

/-- Settles O4: the encoding keeps both fields of the word, and the decoder calls no command word illegal. -/
theorem encodingTheDecodedWordGivesTheWord : Obligations.EncodingTheDecodedWordGivesTheWord :=
  fun w => ⟨wf_decodeWord w, encode_decodeWord w⟩

/-! ### Words of the opcode table -/

theorem tableWord_toNat (w : Word) : tableWord 32 w.toNat = w := by
  rw [tableWord, Nat.mod_eq_of_lt w.isLt, BitVec.ofNat_toNat, BitVec.setWidth_eq]

theorem decodeTableWord_toNat (w : Word) : decodeTableWord 32 w.toNat = some (decodeWord w) := by
  have hdecode := decode_wordBytes_append w []
  rw [List.append_nil] at hdecode
  rw [decodeTableWord, if_pos le_rfl, tableWord_toNat, hdecode]

theorem decodeTableWord_encode (i : Instr) (h : i.wf = true) : decodeTableWord 32 (encode i).toNat = some i := by
  rw [decodeTableWord_toNat, decodeWord_encode i h]

/-- Settles O5: each word is the encoding of its command. -/
theorem tableWordsDecode : Obligations.TableWordsDecode :=
  ⟨decodeTableWord_encode .nop rfl, decodeTableWord_encode .init rfl, decodeTableWord_encode .sealCmd rfl,
    decodeTableWord_encode .openCmd rfl, decodeTableWord_encode .zeroize rfl,
    decodeTableWord_encode (.illegal 1#28 2#4) rfl⟩

end Sys2Proof.Proofs
end

section

/-! What the framer sends to the MAC port and what the comparator answers (rules R77, R81, R82). -/

namespace Sys2Proof.Proofs

open Sys2Proof.Machine

/-! ### The framer -/

theorem length_lenField (s : List Byte) : (lenField s).length = 8 := Vector.length_toList

/-- A state of the sequencer sends what is left of its segment, and the next state goes on from there (rule R81). -/
theorem frmRun_segment (ad ct seg : List Byte) (st next : FrmState)
    (hmove : ∀ i, frmMove ad ct ⟨st, i⟩ = frmSegment seg next ⟨st, i⟩) (n i k : Nat) (hn : i + n = seg.length) :
    frmRun ad ct (n + (1 + k)) ⟨st, i⟩ =
      (seg.drop i ++ (frmRun ad ct k ⟨next, 0⟩).1, (frmRun ad ct k ⟨next, 0⟩).2) := by
  induction n generalizing i with
  | zero =>
    have hdone : ¬i < seg.length := by omega
    have hleave : frmMove ad ct ⟨st, i⟩ = ([], ⟨next, 0⟩) := by rw [hmove, frmSegment, if_neg hdone]
    rw [Nat.zero_add, Nat.add_comm, frmRun, hleave, List.drop_eq_nil_of_le (by omega)]
  | succ n ih =>
    have hlt : i < seg.length := by omega
    have hsend : frmMove ad ct ⟨st, i⟩ = ([seg[i]], ⟨st, i + 1⟩) := by
      rw [hmove, frmSegment, if_pos hlt, List.getD_eq_getElem _ _ hlt]
    rw [Nat.succ_add, frmRun, hsend, ih (i + 1) (by omega), List.drop_eq_getElem_cons hlt]
    rfl

/-- Started in F_AD, the sequencer sends the frame and ends idle (rules R77, R81). -/
theorem frmRun_eq_frame (ad ct : List Byte) :
    frmRun ad ct (frmMoves ad ct) ⟨.fAd, 0⟩ = (frame ad ct, ⟨.idle, 0⟩) := by
  have hmoves : frmMoves ad ct = ad.length + (1 + (8 + (1 + (ct.length + (1 + (8 + (1 + 1))))))) := by
    unfold frmMoves
    omega
  have hlen := length_lenField
  rw [hmoves, frmRun_segment ad ct ad .fAd .fAdLen (fun _ => rfl) _ 0 _ (by omega),
    frmRun_segment ad ct (lenField ad) .fAdLen .fCt (fun _ => rfl) _ 0 _ (by rw [hlen]),
    frmRun_segment ad ct ct .fCt .fCtLen (fun _ => rfl) _ 0 _ (by omega),
    frmRun_segment ad ct (lenField ct) .fCtLen .fEnd (fun _ => rfl) _ 0 _ (by rw [hlen])]
  simp [frmRun, frmMove, frame]

theorem macMessage_eq_frame (ad ct : List Byte) : macMessage ad ct = frame ad ct :=
  congrArg Prod.fst (frmRun_eq_frame ad ct)

/-! ### The comparator -/

theorem foldl_or_eq_zero_iff {α : Type} (f : α → Byte) (l : List α) (acc : Byte) :
    l.foldl (fun acc i => acc ||| f i) acc = 0#8 ↔ acc = 0#8 ∧ ∀ i ∈ l, f i = 0#8 := by
  induction l generalizing acc with
  | nil => simp
  | cons i l ih => rw [List.foldl_cons, ih, BitVec.or_eq_zero_iff, List.forall_mem_cons, and_assoc]

/-- No difference cancels another, so the accumulator stays zero only for equal tags (rule R82). -/
theorem tcmpAcc_eq_zero_iff (e r : Vector Byte 16) : tcmpAcc e r = 0#8 ↔ e = r := by
  have hzero := foldl_or_eq_zero_iff (fun i : Fin 16 => e[i] ^^^ r[i]) (List.finRange 16) 0#8
  rw [tcmpAcc, hzero]
  constructor
  · rintro ⟨_, hbytes⟩
    exact Vector.ext fun i hi => BitVec.xor_eq_zero_iff.mp (hbytes ⟨i, hi⟩ (List.mem_finRange _))
  · rintro rfl
    simp

theorem tcmp_eq (r : Vector Byte 16) (s : State) :
    tcmp r s = ({ s with acc := tcmpAcc s.etag r }, decide (s.etag = r)) :=
  Prod.ext rfl (by simp [tcmp, beq_eq_decide, tcmpAcc_eq_zero_iff])

end Sys2Proof.Proofs
end

section

/-! What the data paths of SEAL and OPEN compute, to the byte and to the call (rules R69, R70, R95 to R97). -/

namespace Sys2Proof.Proofs

open Sys2Proof.Machine

/-! ### The passes in the state of a command -/

theorem length_xorData (s : State) (d : List Byte) : (xorData s d).length = d.length := by simp [xorData]

theorem getD_xorData (s : State) (d : List Byte) (i : Nat) (hi : i < d.length) :
    (xorData s d).getD i 0#8 = d.getD i 0#8 ^^^ ksByte s (64 + i) := by
  simp [xorData, hi]

theorem kxuPass_xorData (s : State) (d : List Byte) (lo n : Nat) (hlo : lo ≤ 64) (hn : d.length = n) :
    (kxuPass Config.params s.status.mode (nonceOperand s) d lo (64 + n) s).2 = xorData s d := by
  subst hn
  exact kxuPass_out _ _ _ d lo s params_lanes_pos hlo

/-- A pass over the key lanes leaves the one-time key in OTK. -/
theorem kxuPass_oneTimeKey (s : State) (d : List Byte) (hi : Nat) (hhi : 32 ≤ hi) :
    ∃ k, (kxuPass Config.params s.status.mode (nonceOperand s) d 0 hi s).1 =
      recordCalls (ksCalls s 0 hi) { s with otk := oneTimeKey s, kstage := k } :=
  kxuPass_keyed _ _ _ d hi s params_lanes_pos hhi

/-- Once scrubbed, any pass leaves its requests only. -/
theorem scrub_kxuPass (s : State) (d : List Byte) (lo hi : Nat) :
    scrub (kxuPass Config.params s.status.mode (nonceOperand s) d lo hi s).1 =
      recordCalls (ksCalls s lo (hi - lo)) (scrub s) :=
  congrArg (fun e => { scrub s with env := e }) (kxuPass_env _ _ _ d lo hi s params_lanes_pos)

/-! ### The three data paths -/

/-- The state a SEAL in this state leaves before `finish` (rule R69). -/
def sealDone (s : State) : State :=
  dataDone (sealCiphertext s ++ (sealTag s).toList) (BitVec.ofNat 32 (s.dLen.toNat + 16)) (sealCalls s) s

/-- The state an OPEN with a matching tag leaves before `finish`, `cs` being its calls (rule R70). -/
def openDone (cs : List PortCall) (s : State) : State :=
  dataDone (xorData s (openCiphertext s) ++ List.replicate 16 0#8) (BitVec.ofNat 32 (s.dLen.toNat - 16)) cs s

theorem sealData_eq_sealDone (s : State) : sealData Config.params s = finish .ok (sealDone s) := by
  have hlen : (dataOperand s.dLen.toNat s).length = s.dLen.toNat := length_dataOperand ..
  obtain ⟨k, hkeyed⟩ := kxuPass_oneTimeKey s (dataOperand s.dLen.toNat s) (64 + s.dLen.toNat) (by omega)
  have hout := kxuPass_xorData s _ 0 _ (Nat.zero_le _) hlen
  simp only [sealData, kxuRun, hlen, hkeyed, hout, macPort, macMessage_eq_frame]
  rw [writeData_writeData _ _ _ _ ((length_xorData ..).trans hlen)]
  simp only [sealDone, dataDone, sealCalls, recordCalls, scrub, writeData, List.append_assoc]
  rfl

theorem openVerify_eq_verdict (s : State) :
    openVerify Config.params s = (recordCalls (verifyCalls s) (scrub s), decide (openTag s = receivedTag s)) := by
  obtain ⟨k, hkeyed⟩ := kxuPass_oneTimeKey s [] 64 (by omega)
  simp only [openVerify, kxuKey, hkeyed, macPort, macMessage_eq_frame, tcmp_eq]
  simp only [verifyCalls, recordCalls, scrub, List.append_assoc]
  rfl

theorem openDecrypt_eq_openDone (s : State) :
    openDecrypt Config.params s = finish .ok (openDone (decryptCalls s) s) := by
  have hlen : (dataOperand (s.dLen.toNat - tagBytes) s).length = s.dLen.toNat - tagBytes := length_dataOperand ..
  have hout := kxuPass_xorData s _ 64 _ le_rfl hlen
  simp only [openDecrypt, kxuData, hlen, hout, scrub_kxuPass, Nat.add_sub_cancel_left]
  rw [writeData_writeData _ _ _ _ ((length_xorData ..).trans hlen)]
  rfl

/-- OPEN with equal tags goes on to its data pass (rule R70). -/
theorem openData_of_match (s : State) (h : openTag s = receivedTag s) :
    openData Config.params s = finish .ok (openDone (verifyCalls s ++ decryptCalls s) s) := by
  simp only [openData, openVerify_eq_verdict, h, decide_true, if_true, openDecrypt_eq_openDone, openDone,
    dataDone_recordCalls_scrub]
  rfl

/-- OPEN with different tags stops at its verdict (rule R72). -/
theorem openData_of_mismatch (s : State) (h : openTag s ≠ receivedTag s) :
    openData Config.params s = finish .authFailed (recordCalls (verifyCalls s) (scrub s)) := by
  simp only [openData, openVerify_eq_verdict, h, decide_false, Bool.false_eq_true, if_false]

theorem exec_seal_of_ready (s : State) (h : SealReady s) : exec .sealCmd s = .next (sealData Config.params s) := by
  obtain ⟨hnonce, had, hd, hanswer⟩ := h
  rw [exec, execSeal, sealCommand_past_checks _ s hnonce had hd, if_pos hanswer]

theorem exec_open_of_ready (s : State) (h : OpenReady s) : exec .openCmd s = .next (openData Config.params s) := by
  obtain ⟨hnonce, had, hd, hlong, hanswer⟩ := h
  rw [exec, execOpen, openCommand_past_checks _ s hnonce had hd hlong, if_pos hanswer]

/-! ### The bytes of DBUF after a data path: the data XORed with the keystream, then what follows it -/

section
variable (n : Nat) (tail : List Byte) (d : Word) (cs : List PortCall) (s : State)

theorem length_xorData_append : (xorData s (dataOperand n s) ++ tail).length = n + tail.length := by
  rw [List.length_append, length_xorData, length_dataOperand]

theorem read_dataDone_data (i : Nat) (hi : i < n) :
    (dataDone (xorData s (dataOperand n s) ++ tail) d cs s).mem.read (dBase + i) =
      s.mem.read (dBase + i) ^^^ ksByte s (64 + i) := by
  have hlen : i < (dataOperand n s).length := (length_dataOperand n s).symm ▸ hi
  have hread := Memory.read_writeBytes s.mem dBase (xorData s (dataOperand n s) ++ tail) (dBase + i)
  rw [length_xorData_append, if_pos (by omega), Nat.add_sub_cancel_left,
    List.getD_append _ _ _ _ ((length_xorData s _).symm ▸ hlen), getD_xorData s _ i hlen] at hread
  rw [← Memory.getD_readBytes s.mem dBase n i hi]
  exact hread

theorem read_dataDone_tail (k : Nat) (hk : k < tail.length) :
    (dataDone (xorData s (dataOperand n s) ++ tail) d cs s).mem.read (dBase + n + k) = tail.getD k 0#8 := by
  have hlen : (xorData s (dataOperand n s)).length = n := (length_xorData ..).trans (length_dataOperand n s)
  have hread := Memory.read_writeBytes s.mem dBase (xorData s (dataOperand n s) ++ tail) (dBase + n + k)
  rw [length_xorData_append, if_pos (by omega), Nat.add_assoc, Nat.add_sub_cancel_left,
    List.getD_append_right _ _ _ _ (by omega), hlen, Nat.add_sub_cancel_left] at hread
  rw [Nat.add_assoc]
  exact hread

theorem read_dataDone_outside (a : Nat) (ha : a < dBase ∨ dBase + n + tail.length ≤ a) :
    (dataDone (xorData s (dataOperand n s) ++ tail) d cs s).mem.read a = s.mem.read a := by
  have hread := Memory.read_writeBytes s.mem dBase (xorData s (dataOperand n s) ++ tail) a
  rwa [length_xorData_append, if_neg (by omega)] at hread

end

end Sys2Proof.Proofs
end

section

/-! SEAL and OPEN past their checks, and the OPEN after a SEAL (rules R69 to R72, R98). -/

namespace Sys2Proof.Proofs

open Sys2Proof.Machine

/-- AUTH_OK is 0 after any command whose word is not that of OPEN (rule R64). -/
theorem finish_of_latched {i : Instr} {s t : State} (code : ErrCode) (hlatched : Latched i s)
    (hpend : t.pendOpc = s.pendOpc) (hi : encode i ≠ 3#32) : finish code t = completed code false t :=
  finish_eq_completed_of_ne code t (by rwa [hpend, hlatched])

/-- An envelope's length fits D_LEN. -/
theorem toNat_ofNat_dLen (n : Nat) (h : n ≤ Config.params.dCap) : (BitVec.ofNat 32 n).toNat = n := by
  have hcap := params_dCap_le
  rw [BitVec.toNat_ofNat]
  omega

theorem exec_seal_eq_completed (s : State) (hlatched : Latched .sealCmd s) (hready : SealReady s) :
    exec .sealCmd s = .next (completed .ok false (sealDone s)) := by
  rw [exec_seal_of_ready s hready, sealData_eq_sealDone,
    finish_of_latched (t := sealDone s) .ok hlatched rfl (by decide)]

theorem read_sealDone_data (s : State) (i : Nat) (hi : i < s.dLen.toNat) :
    (sealDone s).mem.read (dBase + i) = s.mem.read (dBase + i) ^^^ ksByte s (64 + i) :=
  read_dataDone_data _ _ _ _ s i hi

theorem read_sealDone_tag (s : State) (k : Fin 16) :
    (sealDone s).mem.read (dBase + s.dLen.toNat + k.val) = (sealTag s)[k] := by
  have hread := read_dataDone_tail s.dLen.toNat (sealTag s).toList (BitVec.ofNat 32 (s.dLen.toNat + 16)) (sealCalls s)
    s k.val (by simp)
  exact hread.trans (by simp)

theorem read_sealDone_outside (s : State) (a : Nat) (ha : a < dBase ∨ dBase + s.dLen.toNat + 16 ≤ a) :
    (sealDone s).mem.read a = s.mem.read a :=
  read_dataDone_outside _ _ _ _ s a (by simpa using ha)

/-- Settles O9, from the state the data path of SEAL leaves. -/
theorem sealProducesTheEnvelope : Obligations.SealProducesTheEnvelope := by
  intro s hlatched hready
  have hcap := parametersAreLegal.dCap_ge
  have hfit : s.dLen.toNat + 16 ≤ Config.params.dCap := by
    obtain ⟨_, _, hd, _⟩ := hready
    omega
  exact ⟨(sealDone s).mem, exec_seal_eq_completed s hlatched hready, toNat_ofNat_dLen _ hfit,
    read_sealDone_data s, read_sealDone_tag s, read_sealDone_outside s⟩

/-- Settles O11, from the state the data pass of OPEN leaves. -/
theorem openRecoversThePlaintext : Obligations.OpenRecoversThePlaintext := by
  intro s hlatched hready hmatch
  have hlong : 16 ≤ s.dLen.toNat := by
    obtain ⟨_, _, _, hlong, _⟩ := hready
    exact hlong
  have hopen : s.pendOpc = 3#32 := hlatched
  refine ⟨(openDone (verifyCalls s ++ decryptCalls s) s).mem, ?_, fun i hi => read_dataDone_data _ _ _ _ s i hi,
    fun i hlo hhi => ?_, fun a ha => read_dataDone_outside _ _ _ _ s a ?_⟩
  · rw [exec_open_of_ready s hready, openData_of_match s hmatch, finish_eq_completed]
    simp [openDone, dataDone, recordCalls, scrub, hopen]
  · obtain ⟨k, rfl⟩ := Nat.exists_eq_add_of_le hlo
    have hk : k < 16 := by omega
    have hread := read_dataDone_tail (s.dLen.toNat - 16) (List.replicate 16 0#8) (BitVec.ofNat 32 (s.dLen.toNat - 16))
      (verifyCalls s ++ decryptCalls s) s k (by simpa using hk)
    rw [← Nat.add_assoc]
    exact hread.trans (List.getD_replicate _ hk)
  · rw [List.length_replicate, tagBytes]
    omega

/-- Settles O12: the verdict scrubs, records its calls and writes nothing. -/
theorem openRejectsADifferentTag : Obligations.OpenRejectsADifferentTag := by
  intro s _ hready hmismatch
  rw [exec_open_of_ready s hready, openData_of_mismatch s hmismatch, finish_eq_completed_of_error _ _ (by decide)]
  rfl

/-! ### The OPEN accepted after a SEAL -/

/-- The state in which an OPEN has been accepted right after a SEAL completed (rules R63, R69). -/
def reopened (s : State) : State := accept (encode .openCmd) (completed .ok false (sealDone s))

theorem read_reopened_of_lt (s : State) (a : Nat) (ha : a < dBase) : (reopened s).mem.read a = s.mem.read a :=
  read_sealDone_outside s a (.inl ha)

theorem nonceSize_le (s : State) : nonceSize s ≤ 24 := by
  unfold nonceSize modeNonceSize
  split
  · split <;> decide
  · decide

theorem nonceOperand_reopened (s : State) : nonceOperand (reopened s) = nonceOperand s := by
  refine Memory.readBytes_congr _ _ nonceBase (nonceSize s) fun i hi => read_reopened_of_lt s _ ?_
  have hsize := nonceSize_le s
  simp only [nonceBase, dBase]
  omega

theorem ksByte_reopened (s : State) (p : Nat) : ksByte (reopened s) p = ksByte s p := by
  rw [ksByte, nonceOperand_reopened]
  rfl

theorem oneTimeKey_reopened (s : State) : oneTimeKey (reopened s) = oneTimeKey s := by
  simp only [oneTimeKey, ksByte_reopened]

section
variable {s : State} (hready : SealReady s)
include hready

theorem dLen_reopened : (reopened s).dLen.toNat = s.dLen.toNat + 16 := by
  obtain ⟨_, _, hd, _⟩ := hready
  have hcap := parametersAreLegal.dCap_ge
  exact toNat_ofNat_dLen _ (by omega)

theorem openReady_reopened : OpenReady (reopened s) := by
  have hdLen := dLen_reopened hready
  have hcap := parametersAreLegal.dCap_ge
  obtain ⟨hnonce, had, hd, hanswer⟩ := hready
  exact ⟨hnonce, had, by omega, by omega, hanswer⟩

theorem adOperand_reopened : adOperand (reopened s) = adOperand s := by
  obtain ⟨_, had, _⟩ := hready
  have hcap := params_adCap_le
  refine Memory.readBytes_congr _ _ adBase s.adLen.toNat fun i hi => read_reopened_of_lt s _ ?_
  simp only [adBase, dBase]
  omega

theorem openCiphertext_reopened : openCiphertext (reopened s) = sealCiphertext s := by
  have hn : (reopened s).dLen.toNat - tagBytes = s.dLen.toNat := Nat.sub_eq_of_eq_add (dLen_reopened hready)
  rw [openCiphertext, hn, sealCiphertext, xorData, length_dataOperand]
  refine List.map_congr_left fun i hi => ?_
  have hi := List.mem_range.mp hi
  rw [dataOperand, Memory.getD_readBytes _ _ _ i hi]
  exact read_sealDone_data s i hi

theorem openTag_reopened : openTag (reopened s) = sealTag s := by
  rw [openTag, oneTimeKey_reopened, adOperand_reopened hready, openCiphertext_reopened hready, sealTag]

theorem receivedTag_reopened : receivedTag (reopened s) = sealTag s := by
  have hn : (reopened s).dLen.toNat - tagBytes = s.dLen.toNat := Nat.sub_eq_of_eq_add (dLen_reopened hready)
  refine Vector.ext fun k hk => ?_
  rw [receivedTag, hn, tagOperand, Vector.getElem_ofFn]
  exact read_sealDone_tag s ⟨k, hk⟩

end

/-- Settles O17: the OPEN finds the tag it expects, and its data pass XORs with the keystream SEAL used (rule R98). -/
theorem openAfterSealGivesThePlaintextBack : Obligations.OpenAfterSealGivesThePlaintextBack := by
  intro s hlatched hready
  have hdLen := dLen_reopened hready
  have hmatch := (openTag_reopened hready).trans (receivedTag_reopened hready).symm
  obtain ⟨m, hopen, hdata, hzero, _⟩ := openRecoversThePlaintext (reopened s) rfl (openReady_reopened hready) hmatch
  rw [hdLen, Nat.add_sub_cancel] at hopen hdata hzero
  refine ⟨_, _, exec_seal_eq_completed s hlatched hready, hopen, rfl, rfl,
    (BitVec.ofNat_toNat ..).trans (BitVec.setWidth_eq _), fun i hi => ?_, fun i hi => ?_⟩
  · have hread : (reopened s).mem.read (dBase + i) = s.mem.read (dBase + i) ^^^ ksByte s (64 + i) :=
      read_sealDone_data s i hi
    refine (hdata i hi).trans ?_
    rw [hread, ksByte_reopened, BitVec.xor_assoc, BitVec.xor_self, BitVec.xor_zero]
  · rw [Nat.add_assoc]
    exact hzero (s.dLen.toNat + i) (by omega) (by omega)

end Sys2Proof.Proofs
end

section

/-! How the other commands and the failed checks complete, and what every completed command leaves
(rules R64, R67, R71, R73, R74, R89, R105). -/

namespace Sys2Proof.Proofs

open Sys2Proof.Machine

/-! ### Commands that need no collaborator -/

/-- Settles O7: the latched word is not that of OPEN, so AUTH_OK is 0. -/
theorem nopCompletesOk : Obligations.NopCompletesOk := fun _ hlatched =>
  congrArg Host.Outcome.next (finish_of_latched .ok hlatched rfl (by decide))

/-- Settles O15: an error completion, whatever the fields of the word. -/
theorem illegalWordCompletesWithItsError : Obligations.IllegalWordCompletesWithItsError := fun s _ _ _ _ =>
  congrArg Host.Outcome.next (finish_eq_completed_of_error .illegalCommand s (by decide))

/-- Each offset of memory, through the three clears of ZEROIZE (rule R73). -/
theorem read_zeroized (s : State) (a : Nat) :
    (zeroizeCommand Config.params s).mem.read a =
      if nonceBase ≤ a ∧ a < nonceBase + nonceBytes then 0#8
      else if dBase ≤ a ∧ a < dBase + Config.params.dCap then 0#8
      else if adBase ≤ a ∧ a < adBase + Config.params.adCap then 0#8 else s.mem.read a := by
  rw [zeroizeCommand, finish_mem, Memory.read_clear, Memory.read_clear, Memory.read_clear]

theorem read_zeroized_of_inBuffer (s : State) (a : Nat) (h : InBuffer Config.params a) :
    (zeroizeCommand Config.params s).mem.read a = 0#8 := by
  rw [read_zeroized]
  rcases h with h | h | h
  · rw [if_pos h]
  · rw [if_pos h, ite_self, ite_self]
  · rw [if_pos h, ite_self]

theorem read_zeroized_of_not_inBuffer (s : State) (a : Nat) (h : ¬InBuffer Config.params a) :
    (zeroizeCommand Config.params s).mem.read a = s.mem.read a := by
  obtain ⟨hnonce, had, hd⟩ : ¬_ ∧ ¬_ ∧ ¬_ := by rwa [InBuffer, not_or, not_or] at h
  rw [read_zeroized, if_neg hnonce, if_neg hd, if_neg had]

/-- Settles O14: memory reads as its three clears say, and the rest is the definition. -/
theorem zeroizeClearsTheBuffers : Obligations.ZeroizeClearsTheBuffers := by
  intro s hlatched
  have hzero := read_zeroized_of_inBuffer s
  refine ⟨(zeroizeCommand Config.params s).mem, ?_, fun i hi => hzero _ (.inr (.inl ?_)),
    fun i hi => hzero _ (.inr (.inr ?_)), fun i hi => hzero _ (.inl ?_), read_zeroized_of_not_inBuffer s⟩
  · exact congrArg Host.Outcome.next (finish_of_latched .ok hlatched rfl (by decide))
  · exact ⟨Nat.le_add_right .., Nat.add_lt_add_left hi _⟩
  · exact ⟨Nat.le_add_right .., Nat.add_lt_add_left hi _⟩
  · exact ⟨Nat.le_add_right .., Nat.add_lt_add_left hi _⟩

/-! ### The checks of SEAL and OPEN -/

/-- Settles O10, check by check. -/
theorem sealAndOpenErrorsInTheirOrder : Obligations.SealAndOpenErrorsInTheirOrder := by
  intro i s hi _
  have hcap := parametersAreLegal.dCap_ge
  have herror (code : ErrCode) (hcode : code ≠ .ok) : finish code s = completed code false s :=
    finish_eq_completed_of_error code s hcode
  rcases hi with rfl | rfl
  · refine ⟨fun hinst => ?_, fun hinst hnonce => ?_, fun hready had => ?_, fun hready _ hd => ?_, nofun⟩
    all_goals rw [exec, execSeal]
    · rw [sealCommand_notInitialised _ s hinst, herror _ (by decide)]
    · rw [sealCommand_badNonce _ s hinst hnonce, raiseInvalidNonceSize_eq]
    · rw [sealCommand_lengthError _ s hready (.inl had), herror _ (by decide)]
    · rw [sealCommand_lengthError _ s hready (.inr (by omega)), herror _ (by decide)]
  · refine ⟨fun hinst => ?_, fun hinst hnonce => ?_, fun hready had => ?_, nofun, fun hready _ hd => ?_⟩
    all_goals rw [exec, execOpen]
    · rw [openCommand_notInitialised _ s hinst, herror _ (by decide)]
    · rw [openCommand_badNonce _ s hinst hnonce, raiseInvalidNonceSize_eq]
    · rw [openCommand_lengthError _ s hready (.inl had), herror _ (by decide)]
    · rw [openCommand_lengthError _ s hready (.inr hd), herror _ (by decide)]

/-- Settles O13: an envelope below 16 bytes also fits DBUF, so the short check is the one that decides. -/
theorem shortOpenFailsAuthentication : Obligations.ShortOpenFailsAuthentication := by
  intro s _ hready had hshort
  have hcap := parametersAreLegal.dCap_ge
  rw [exec, execOpen, openCommand_short _ s hready had (by omega) hshort,
    finish_eq_completed_of_error _ s (by decide)]

/-! ### The end of a command -/

/-- The command latched in `s` has ended in `t` (rules R64, R101). -/
def Ended (s t : State) : Prop :=
  t.status.busy = false ∧ t.status.done = true ∧ t.pendOpc = 0#32 ∧
    (t.status.authOk = true → s.pendOpc = 3#32 ∧ t.status.errcode = .ok)

theorem ended_finish (code : ErrCode) (s t : State) (hpend : t.pendOpc = s.pendOpc) : Ended s (finish code t) := by
  refine ⟨rfl, rfl, rfl, fun hauth => ?_⟩
  simp only [finish_status, Status.finished, Bool.and_eq_true, beq_iff_eq] at hauth
  exact ⟨hpend.symm.trans hauth.1, hauth.2⟩

theorem ended_fault (s : State) : Ended s (raiseInvalidNonceSize s) := ⟨rfl, rfl, rfl, nofun⟩

theorem ended_seal (s : State) (hanswer : collaboratorsAnswer s = true) : Ended s (sealCommand Config.params s) := by
  rcases sealCommand_cases Config.params s with ⟨code, _, h⟩ | ⟨_, h⟩ | ⟨hsilent, _⟩ | ⟨_, _, _, _, h⟩
  · exact h ▸ ended_finish code s s rfl
  · exact h ▸ ended_fault s
  · exact absurd (hanswer.symm.trans hsilent) (by decide)
  · rw [h, sealData_eq_sealDone]
    exact ended_finish .ok s (sealDone s) rfl

theorem ended_open (s : State) (hanswer : collaboratorsAnswer s = true) : Ended s (openCommand Config.params s) := by
  rcases openCommand_cases Config.params s with ⟨code, _, h⟩ | ⟨_, h⟩ | ⟨hsilent, _⟩ | ⟨_, _, _, hlong, _, h⟩
  · exact h ▸ ended_finish code s s rfl
  · exact h ▸ ended_fault s
  · exact absurd (hanswer.symm.trans hsilent) (by decide)
  · obtain ⟨code, bs, d, cs, _, hdata⟩ := openData_eq Config.params s params_lanes_pos hlong
    rw [h, hdata]
    exact ended_finish code s (dataDone bs d cs s) rfl

theorem ended_init (s : State) : Ended s (initCommand s) := by
  unfold initCommand
  split <;> exact ended_finish _ s _ rfl

/-- Settles O58: no command waits but for a collaborator. -/
theorem theEngineEndsTheCommand : Obligations.TheEngineEndsTheCommand := by
  intro s _ hanswer
  cases decodeWord s.pendOpc with
  | nop => exact ⟨_, rfl, ended_finish .ok s s rfl⟩
  | init => exact ⟨_, rfl, ended_init s⟩
  | sealCmd => exact ⟨_, rfl, ended_seal s hanswer⟩
  | openCmd => exact ⟨_, rfl, ended_open s hanswer⟩
  | zeroize => exact ⟨_, rfl, ended_finish .ok s _ rfl⟩
  | illegal rsvd opc => exact ⟨_, rfl, ended_finish .illegalCommand s s rfl⟩

/-! ### The calls of a command -/

theorem countP_isMacCall_ksCalls (s : State) (lo len : Nat) : (ksCalls s lo len).countP isMacCall = 0 := by
  simp [ksCalls, List.countP_eq_zero, isMacCall]

theorem countP_isMacCall_sealCalls (s : State) : (sealCalls s).countP isMacCall = 1 := by
  rw [sealCalls, List.countP_append, countP_isMacCall_ksCalls]
  rfl

theorem countP_isMacCall_verifyCalls (s : State) : (verifyCalls s).countP isMacCall = 1 := by
  rw [verifyCalls, List.countP_append, countP_isMacCall_ksCalls]
  rfl

theorem countP_isMacCall_openCalls (s : State) : (verifyCalls s ++ decryptCalls s).countP isMacCall = 1 := by
  rw [List.countP_append, countP_isMacCall_verifyCalls, decryptCalls, countP_isMacCall_ksCalls]

/-- A SEAL stopped at a check or left waiting calls nothing. -/
theorem sealCommand_calls_eq_of_not_ready (s : State) (h : ¬SealReady s) :
    (sealCommand Config.params s).env.calls = s.env.calls := by
  rcases sealCommand_cases Config.params s with ⟨code, _, hs⟩ | ⟨_, hs⟩ | ⟨_, hs⟩ | ⟨hnonce, had, hd, hanswer, _⟩
  · rw [hs, finish_env]
  · rw [hs, raiseInvalidNonceSize_env]
  · rw [hs]
  · exact absurd ⟨hnonce, had, hd, hanswer⟩ h

/-- An OPEN stopped at a check or left waiting calls nothing. -/
theorem openCommand_calls_eq_of_not_ready (s : State) (h : ¬OpenReady s) :
    (openCommand Config.params s).env.calls = s.env.calls := by
  rcases openCommand_cases Config.params s with ⟨code, _, hs⟩ | ⟨_, hs⟩ | ⟨_, hs⟩ | ⟨hnonce, had, hd, hlong, hanswer, _⟩
  · rw [hs, finish_env]
  · rw [hs, raiseInvalidNonceSize_env]
  · rw [hs]
  · exact absurd ⟨hnonce, had, hd, hlong, hanswer⟩ h

theorem openData_calls_mac_once (s : State) :
    ∃ cs, (openData Config.params s).env.calls = s.env.calls ++ cs ∧ cs.countP isMacCall = 1 := by
  by_cases hmatch : openTag s = receivedTag s
  · exact ⟨_, by rw [openData_of_match s hmatch]; rfl, countP_isMacCall_openCalls s⟩
  · exact ⟨_, by rw [openData_of_mismatch s hmatch]; rfl, countP_isMacCall_verifyCalls s⟩

/-- A command past its checks and answered (rules R69, R70). -/
def CallsCollaborators (i : Instr) (s : State) : Prop := (i = .sealCmd ∧ SealReady s) ∨ (i = .openCmd ∧ OpenReady s)

theorem calls_mac_once_of_ready (i : Instr) (s t : State) (h : exec i s = .next t) (hready : CallsCollaborators i s) :
    ∃ cs, t.env.calls = s.env.calls ++ cs ∧ cs.countP isMacCall = 1 := by
  rcases hready with ⟨rfl, hready⟩ | ⟨rfl, hready⟩
  · rw [exec_seal_of_ready s hready, sealData_eq_sealDone] at h
    cases h
    exact ⟨sealCalls s, rfl, countP_isMacCall_sealCalls s⟩
  · rw [exec_open_of_ready s hready] at h
    cases h
    exact openData_calls_mac_once s

theorem calls_eq_of_not_ready (i : Instr) (s t : State) (h : exec i s = .next t) (hready : ¬CallsCollaborators i s) :
    t.env.calls = s.env.calls := by
  cases i <;> cases h
  case sealCmd => exact sealCommand_calls_eq_of_not_ready s fun hs => hready (.inl ⟨rfl, hs⟩)
  case openCmd => exact openCommand_calls_eq_of_not_ready s fun hs => hready (.inr ⟨rfl, hs⟩)
  case init =>
    unfold initCommand
    split <;> rfl
  all_goals rfl

/-- Settles O32, by whether the command gets to its collaborators. -/
theorem macIsCalledExactlyOnce : Obligations.MacIsCalledExactlyOnce := by
  intro i s t h
  by_cases hready : CallsCollaborators i s
  · obtain ⟨cs, hcalls, hmac⟩ := calls_mac_once_of_ready i s t h hready
    exact ⟨cs, hcalls, fun _ => hmac, fun hnot => absurd hready hnot⟩
  · exact ⟨[], (calls_eq_of_not_ready i s t h hready).trans (List.append_nil _).symm, fun hyes => absurd hyes hready,
      fun _ => rfl⟩

end Sys2Proof.Proofs
end

section

/-! Acceptance and the engine's step: a CMD write, the decoding of its word, and the turn that runs it
(rules R63 to R65, R117). -/

namespace Sys2Proof.Proofs

open Sys2Proof.Machine

/-! ### Decoding -/

/-- A word decodes to the command its two fields encode. -/
theorem decodeWord_of_fields (w : Word) (i : Instr) (hwf : i.wf = true)
    (h : cmdWord (rsvdField w) (opcField w) = encode i) : decodeWord w = i :=
  (decodeWord_eq_iff w i hwf).mpr ((cmdWord_fields w).symm.trans h)

/-- Settles O2: in each line the two fields are those of the command's encoding. -/
theorem latchedWordIsDecodedByFields : Obligations.LatchedWordIsDecodedByFields := by
  intro w
  have hopc {opc : BitVec 4} (i : Instr) (hwf : i.wf = true) (hi : encode i = cmdWord 0#28 opc)
      (hclear : w.extractLsb' 4 28 = 0#28) (h : w.extractLsb' 0 4 = opc) : decodeWord w = i :=
    decodeWord_of_fields w i hwf (by rw [rsvdField, opcField, hclear, h, hi])
  refine ⟨fun hset => ?_, fun hclear => ⟨hopc .nop rfl rfl hclear, hopc .init rfl rfl hclear,
    hopc .sealCmd rfl rfl hclear, hopc .openCmd rfl rfl hclear, hopc .zeroize rfl rfl hclear, fun hlarge => ?_⟩⟩
  · exact decodeWord_of_fields w _ (by simpa [Instr.wf] using .inl hset) rfl
  · exact hopc (.illegal 0#28 _) (by simpa [Instr.wf] using hlarge) rfl hclear rfl

/-! ### The CMD write and the engine's turn -/

/-- Settles O33: the write reaches CMD, whose three cases are those of `cmdWrite`. -/
theorem cmdWriteIsHandledByItsCase : Obligations.CmdWriteIsHandledByItsCase := fun s w =>
  perform_writeReg Config.params 0x008#23 .word w s .cmd rfl rfl

theorem step_of_engineTurn (s t : State) (hturn : turn Config.params s = engineTurn t) (hbusy : t.status.busy = true) :
    step s = exec (decodeWord t.pendOpc) t :=
  step_of_engine s t (by rw [hturn, engineTurn, if_pos hbusy])

/-- Settles O6: each of the three situations hands the turn to the engine. -/
theorem stepRunsTheLatchedCommand : Obligations.StepRunsTheLatchedCommand := by
  rintro s i hbusy rfl
  refine ⟨fun rest hsched => ?_, fun hsched hport => ?_, fun w hport hheld hsched => ?_⟩
  · exact step_of_engineTurn s (popEvent rest s) (by simp only [turn, hsched]) hbusy
  · exact step_of_engineTurn s s (by simp only [turn, hsched, hport]) hbusy
  · have hturn : turn Config.params s = portTurn Config.params w s := by
      rcases hsched with hsched | ⟨a, rest, hsched⟩ <;> simp only [turn, hsched, hport]
    exact step_of_engineTurn s s (by rw [hturn, portTurn, if_pos hheld]) hbusy

end Sys2Proof.Proofs
end

section

/-! The length encoder, the bytes of the frame, the comparator's accumulator, and what an OPEN with a wrong tag reveals
(rules R76 to R83, R85). -/

namespace Sys2Proof.Proofs

open Sys2Proof.Machine

/-! ### The length encoder -/

theorem getElem_le64 (n : BitVec 64) (k : Fin 8) : (le64 n)[k] = (n >>> (8 * k.val)).setWidth 8 := Vector.getElem_ofFn _

/-- Byte k of the encoding is digit k of the number in base 256. -/
theorem toNat_getElem_le64 (n : BitVec 64) (k : Fin 8) : (le64 n)[k].toNat = n.toNat / 256 ^ k.val % 256 := by
  rw [getElem_le64, BitVec.toNat_setWidth, BitVec.toNat_ushiftRight, Nat.shiftRight_eq_div_pow, Nat.pow_mul]

/-- The first `len` digits in base 256, least significant first, rebuild a number below that many digits' range. -/
theorem foldr_range_digits (len n : Nat) :
    (List.range len).foldr (fun k acc => n / 256 ^ k % 256 + 256 * acc) 0 = n % 256 ^ len := by
  induction len generalizing n with
  | zero => rw [List.range_zero, List.foldr_nil, Nat.pow_zero, Nat.mod_one]
  | succ len ih =>
    have hshift (k : Nat) : n / 256 ^ (k + 1) = n / 256 / 256 ^ k := by rw [Nat.pow_succ', Nat.div_div_eq_div_mul]
    rw [List.range_succ_eq_map, List.foldr_cons, List.foldr_map]
    simp only [Nat.succ_eq_add_one, hshift, ih, Nat.pow_zero, Nat.div_one]
    rw [Nat.pow_succ', Nat.mod_mul]

/-- Settles O20: the bytes are the base-256 digits, and a 32-bit length has only four. -/
theorem lengthEncoderIsLittleEndian : Obligations.LengthEncoderIsLittleEndian := by
  refine ⟨fun n k => ?_, fun n => ?_, fun v k hk => ?_⟩
  · rw [getElem_le64]
    refine BitVec.eq_of_toNat_eq ?_
    have hmask : (0xFF#64).toNat = 2 ^ 8 - 1 := rfl
    rw [BitVec.toNat_setWidth, BitVec.toNat_setWidth, BitVec.toNat_and, hmask, Nat.and_two_pow_sub_one_eq_mod,
      Nat.mod_mod]
  · have hfit : n.toNat < 256 ^ 8 := n.isLt
    have hdigits := foldr_range_digits 8 n.toNat
    rw [← List.map_coe_finRange_eq_range, List.foldr_map, Nat.mod_eq_of_lt hfit] at hdigits
    simpa only [toNat_getElem_le64] using hdigits
  · have hsmall : v.toNat < 256 ^ k.val :=
      calc v.toNat < 256 ^ 4 := v.isLt
        _ ≤ 256 ^ k.val := Nat.pow_le_pow_right (by decide) hk
    refine BitVec.eq_of_toNat_eq ?_
    rw [toNat_getElem_le64, BitVec.toNat_setWidth_of_le (by decide), Nat.div_eq_of_lt hsmall]
    rfl

/-! ### The frame -/

/-- Settles O21. -/
theorem sequencerSendsTheFrame : Obligations.SequencerSendsTheFrame := frmRun_eq_frame

theorem getD_lenField (s : List Byte) (k : Fin 8) :
    (lenField s).getD k.val 0#8 = (le64 (BitVec.ofNat 64 s.length))[k] := by
  simp [lenField]

/-- A byte of the middle of three byte strings in a row. -/
theorem getD_append_middle (xs ys zs : List Byte) (i : Nat) (hi : i < ys.length) :
    (xs ++ (ys ++ zs)).getD (xs.length + i) 0#8 = ys.getD i 0#8 := by
  rw [List.getD_append_right _ _ _ _ (Nat.le_add_right ..), Nat.add_sub_cancel_left, List.getD_append _ _ _ _ hi]

/-- Settles O22: each range of positions is one segment of the frame. -/
theorem frameByteByByte : Obligations.FrameByteByByte := by
  intro ad ct
  have hlen := length_lenField
  rw [macMessage_eq_frame, frame]
  refine ⟨?_, fun i hi => ?_, fun k => ?_, fun i hi => ?_, fun k => ?_⟩
  · simp only [List.length_append, hlen]
    omega
  · rw [List.append_assoc, List.append_assoc, List.getD_append _ _ _ _ hi]
  · have hfield := getD_append_middle ad (lenField ad) (ct ++ lenField ct) k.val (by rw [hlen]; exact k.isLt)
    rwa [getD_lenField, ← List.append_assoc, ← List.append_assoc] at hfield
  · have hdata := getD_append_middle (ad ++ lenField ad) ct (lenField ct) i hi
    rwa [List.length_append, hlen, ← List.append_assoc] at hdata
  · have hfield := getD_append_middle (ad ++ lenField ad ++ ct) (lenField ct) [] k.val (by rw [hlen]; exact k.isLt)
    rwa [getD_lenField, List.length_append, List.length_append, hlen, List.append_nil] at hfield

/-! ### The comparator -/

theorem getLsbD_foldl_or {α : Type} (f : α → Byte) (l : List α) (acc : Byte) (b : Nat) :
    (l.foldl (fun acc i => acc ||| f i) acc).getLsbD b = true ↔
      acc.getLsbD b = true ∨ ∃ i ∈ l, (f i).getLsbD b = true := by
  induction l generalizing acc with
  | nil => simp
  | cons i l ih => rw [List.foldl_cons, ih, BitVec.getLsbD_or, Bool.or_eq_true, List.exists_mem_cons_iff, or_assoc]

theorem getLsbD_tcmpAcc (e r : Vector Byte 16) (b : Nat) :
    (tcmpAcc e r).getLsbD b = true ↔ ∃ k : Fin 16, (e[k] ^^^ r[k]).getLsbD b = true := by
  rw [tcmpAcc, getLsbD_foldl_or (fun k : Fin 16 => e[k] ^^^ r[k])]
  simp

/-- Settles O23. -/
theorem comparatorIsExact : Obligations.ComparatorIsExact := by
  intro r s
  rw [tcmp_eq]
  exact ⟨decide_eq_true_iff, rfl, fun b _ => getLsbD_tcmpAcc s.etag r b⟩

/-! ### An OPEN whose received tag is another -/

section
variable {s : State} {m : Memory} (hready : OpenReady s)
  (hm : ∀ a, a < dBase + (s.dLen.toNat - 16) ∨ dBase + s.dLen.toNat ≤ a → m.read a = s.mem.read a)
include hm

theorem nonceOperand_otherTag : nonceOperand { s with mem := m } = nonceOperand s := by
  refine Memory.readBytes_congr _ _ nonceBase (nonceSize s) fun i hi => hm _ (.inl ?_)
  have hsize := nonceSize_le s
  simp only [nonceBase, dBase]
  omega

theorem openCiphertext_otherTag : openCiphertext { s with mem := m } = openCiphertext s :=
  Memory.readBytes_congr _ _ dBase (s.dLen.toNat - 16) fun _ hi => hm _ (.inl (Nat.add_lt_add_left hi _))

theorem oneTimeKey_otherTag : oneTimeKey { s with mem := m } = oneTimeKey s := by
  simp only [oneTimeKey, ksByte, nonceOperand_otherTag hm]

include hready

theorem adOperand_otherTag : adOperand { s with mem := m } = adOperand s := by
  obtain ⟨_, had, _⟩ := hready
  have hcap := params_adCap_le
  refine Memory.readBytes_congr _ _ adBase s.adLen.toNat fun i hi => hm _ (.inl ?_)
  simp only [adBase, dBase]
  omega

/-- The tag an OPEN expects does not depend on the tag it received. -/
theorem openTag_otherTag : openTag { s with mem := m } = openTag s := by
  rw [openTag, oneTimeKey_otherTag hm, adOperand_otherTag hready hm, openCiphertext_otherTag hm, openTag]

/-- Nor do the calls it makes up to its verdict. -/
theorem verifyCalls_otherTag : verifyCalls { s with mem := m } = verifyCalls s := by
  rw [verifyCalls, ksCalls, nonceOperand_otherTag hm, oneTimeKey_otherTag hm, adOperand_otherTag hready hm,
    openCiphertext_otherTag hm, verifyCalls, ksCalls]

end

/-- Settles O60: a rejected OPEN leaves its verdict and its calls only (O12), and neither depends on the received tag. -/
theorem authFailureRevealsNothing : Obligations.AuthFailureRevealsNothing := by
  intro s t m hlatched hready hmismatch hm hmismatch' hexec
  rw [openRejectsADifferentTag s hlatched hready hmismatch] at hexec
  rw [← openTag_otherTag hready hm] at hmismatch'
  rw [openRejectsADifferentTag { s with mem := m } hlatched hready hmismatch', verifyCalls_otherTag hready hm]
  cases hexec
  rfl

end Sys2Proof.Proofs
end

section

/-! The keystream XOR unit: where the multiplexer sends a byte, what the passes of SEAL and OPEN give back, and what their
outcome does not depend on (rules R87, R90 to R98). -/

namespace Sys2Proof.Proofs

open Sys2Proof.Machine

/-! ### The multiplexer -/

theorem laneMux_of_key (p : Nat) (k : Byte) (d : List Byte) (u : Kxu) (h : p < 32) :
    laneMux p k d u = { u with otk := (laneMux p k d u).otk } := by
  rw [laneMux, if_pos h]

theorem laneMux_of_discard (p : Nat) (k : Byte) (d : List Byte) (u : Kxu) (hlo : 32 ≤ p) (hhi : p < 64) :
    laneMux p k d u = u := by
  rw [laneMux, if_neg (not_lt.mpr hlo), if_pos hhi]

theorem laneMux_of_data (p : Nat) (k : Byte) (d : List Byte) (u : Kxu) (h : 64 ≤ p) :
    laneMux p k d u = { u with out := (laneMux p k d u).out } := by
  rw [laneMux, if_neg (by omega), if_neg (not_lt.mpr h)]

/-- Settles O24, field by field: only OTK changes below 32, only the output from 64 on. -/
theorem multiplexerRoutesByPosition : Obligations.MultiplexerRoutesByPosition := by
  intro p k d u
  refine ⟨fun hkey => ⟨laneMux_of_key p k d u hkey, fun i => ?_⟩, laneMux_of_discard p k d u,
    fun hdata hout => ⟨laneMux_of_data p k d u hdata, ?_, fun i hi => ?_⟩⟩
  · simp [laneMux_otk, Vector.getElem_setIfInBounds, eq_comm]
  · simp [laneMux_out, not_lt.mpr hdata]
  · rw [laneMux_out, if_neg (not_lt.mpr hdata), List.getD_eq_getElem?_getD, List.getElem?_set]
    by_cases hip : p - 64 = i
    · simp [hip, hi]
    · simp [hip, Ne.symm hip]

/-! ### The three passes -/

theorem lanes_pos {P : Config.Params} (hP : P.Legal) : 0 < P.lanes := by
  have hmem := hP.lanes_mem
  simp only [List.mem_cons, List.not_mem_nil, or_false] at hmem
  omega

/-- Settles O25: a pass over the key lanes and every data position. -/
theorem kxuRunResult : Obligations.KxuRunResult := fun P mode nonce pt s hP =>
  have ⟨k, hstate⟩ := kxuPass_keyed P mode nonce pt (64 + pt.length) s (lanes_pos hP) (by omega)
  ⟨k, Prod.ext hstate (kxuPass_out P mode nonce pt 0 s (lanes_pos hP) (Nat.zero_le _))⟩

/-- Settles O26: a pass over the key lanes. -/
theorem kxuKeyResult : Obligations.KxuKeyResult := fun P mode nonce s hP =>
  kxuPass_keyed P mode nonce [] 64 s (lanes_pos hP) (by omega)

/-- A pass that starts above the key lanes leaves OTK alone (rules R92, R97). -/
theorem kxuPass_otk_of_unkeyed (P : Config.Params) (mode : NonceMode) (nonce d : List Byte) (lo hi : Nat) (s : State)
    (hW : 0 < P.lanes) (hlo : 32 ≤ lo) : (kxuPass P mode nonce d lo hi s).1.otk = s.otk := by
  refine (congrArg Kxu.otk (runPass_eq_positions P _ _ hW)).trans (Vector.ext fun i hi32 => ?_)
  rw [foldl_posStep_otk _ _ _ _ _ hi32, if_neg (by simp; omega)]

/-- A pass without positions does nothing. -/
theorem kxuPass_of_empty (P : Config.Params) (mode : NonceMode) (nonce : List Byte) (lo : Nat) (s : State)
    (hW : 0 < P.lanes) : kxuPass P mode nonce [] lo lo s = (s, []) := by
  simp only [kxuPass]
  rw [runPass_eq_positions _ _ _ hW]
  simp [recordCalls]

/-- A pass above the key lanes: only the contents of KSTAGE are not told (rule R97). -/
theorem kxuPass_unkeyed (P : Config.Params) (mode : NonceMode) (nonce d : List Byte) (lo hi : Nat) (s : State)
    (hW : 0 < P.lanes) (hlo : 32 ≤ lo) :
    ∃ k : Vector Byte 64,
      (kxuPass P mode nonce d lo hi s).1 =
        { s with
          kstage := k
          env := { s.env with calls := s.env.calls ++ (List.range' lo (hi - lo)).map fun p => .ks mode nonce p } } := by
  refine ⟨(kxuPass P mode nonce d lo hi s).1.kstage, ?_⟩
  rw [← kxuPass_env P mode nonce d lo hi s hW, ← kxuPass_otk_of_unkeyed P mode nonce d lo hi s hW hlo]
  rfl

/-- Settles O27: the pass starts at the first data position, and has none for empty data. -/
theorem kxuDataResult : Obligations.KxuDataResult := by
  intro P mode nonce ct s hP
  have hW := lanes_pos hP
  obtain ⟨k, hstate⟩ := kxuPass_unkeyed P mode nonce ct 64 (64 + ct.length) s hW (by omega)
  rw [Nat.add_sub_cancel_left] at hstate
  refine ⟨⟨k, Prod.ext hstate (kxuPass_out P mode nonce ct 64 s hW le_rfl)⟩, ?_⟩
  rintro rfl
  exact kxuPass_of_empty P mode nonce 64 s hW

/-- Settles O28: each byte is XORed twice with the same keystream byte. -/
theorem kxuDataUndoesKxuRun : Obligations.KxuDataUndoesKxuRun := by
  intro P mode nonce d s t hP hkey
  have hW := lanes_pos hP
  rw [kxuData, kxuPass_out _ _ _ _ _ _ hW le_rfl, kxuRun, kxuPass_out _ _ _ _ _ _ hW (Nat.zero_le _), hkey]
  apply List.ext_getElem
  · simp
  · intro i hi hd
    simp [hd]

/-! ### What the outcome of SEAL and OPEN does not depend on -/

/-- Data depends on no keystream byte below position 64 (rule R94). -/
theorem kxuPass_out_congr {P Q : Config.Params} (hP : P.Legal) (hQ : Q.Legal)
    (hks : ∀ key mode nonce p, 64 ≤ p → Q.ks key mode nonce p = P.ks key mode nonce p)
    (mode : NonceMode) (nonce d : List Byte) (lo : Nat) (s : State) (hlo : lo ≤ 64) :
    (kxuPass Q mode nonce d lo (64 + d.length) s).2 = (kxuPass P mode nonce d lo (64 + d.length) s).2 := by
  rw [kxuPass_out Q _ _ _ _ _ (lanes_pos hQ) hlo, kxuPass_out P _ _ _ _ _ (lanes_pos hP) hlo]
  simp only [hks _ _ _ _ (Nat.le_add_right 64 _)]

/-- Two implementations that SEAL and OPEN cannot tell apart: they differ at most in their lane count and in
keystream bytes 32 to 63 (rules R90, R93). -/
structure SameForCommands (P Q : Config.Params) : Prop where
  adCap_eq : Q.adCap = P.adCap
  dCap_eq : Q.dCap = P.dCap
  mac_eq : Q.mac = P.mac
  ks_eq : ∀ key mode nonce p, p < 32 ∨ 64 ≤ p → Q.ks key mode nonce p = P.ks key mode nonce p

section
variable {P Q : Config.Params} (h : SameForCommands P Q) (hP : P.Legal) (hQ : Q.Legal)
include h

theorem SameForCommands.keyBytes_eq (key : List Byte) (mode : NonceMode) (nonce : List Byte) :
    (Vector.ofFn fun p : Fin 32 => Q.ks key mode nonce p.val) = Vector.ofFn fun p : Fin 32 => P.ks key mode nonce p.val :=
  congrArg Vector.ofFn (funext fun p => h.ks_eq key mode nonce p.val (.inl p.isLt))

include hP hQ

/-- The SEAL pass of both: only KSTAGE may differ. -/
theorem SameForCommands.kxuRun_eq (mode : NonceMode) (nonce pt : List Byte) (s : State) :
    ∃ k, kxuRun Q mode nonce pt s =
      ({ (kxuRun P mode nonce pt s).1 with kstage := k }, (kxuRun P mode nonce pt s).2) := by
  obtain ⟨kP, hrunP⟩ := kxuRunResult P mode nonce pt s hP
  obtain ⟨kQ, hrunQ⟩ := kxuRunResult Q mode nonce pt s hQ
  exact ⟨kQ, by simp only [hrunP, hrunQ, h.keyBytes_eq, h.ks_eq _ _ _ _ (.inr (Nat.le_add_right 64 _))]⟩

/-- The key pass of both: only KSTAGE may differ. -/
theorem SameForCommands.kxuKey_eq (mode : NonceMode) (nonce : List Byte) (s : State) :
    ∃ k, kxuKey Q mode nonce s = { kxuKey P mode nonce s with kstage := k } := by
  obtain ⟨kP, hkeyP⟩ := kxuKeyResult P mode nonce s hP
  obtain ⟨kQ, hkeyQ⟩ := kxuKeyResult Q mode nonce s hQ
  exact ⟨kQ, by simp only [hkeyP, hkeyQ, h.keyBytes_eq]⟩

/-- The data pass of both: only KSTAGE may differ. -/
theorem SameForCommands.kxuData_eq (mode : NonceMode) (nonce ct : List Byte) (s : State) :
    ∃ k, kxuData Q mode nonce ct s =
      ({ (kxuData P mode nonce ct s).1 with kstage := k }, (kxuData P mode nonce ct s).2) := by
  obtain ⟨⟨kP, hdataP⟩, _⟩ := kxuDataResult P mode nonce ct s hP
  obtain ⟨⟨kQ, hdataQ⟩, _⟩ := kxuDataResult Q mode nonce ct s hQ
  exact ⟨kQ, by simp only [hdataP, hdataQ, h.ks_eq _ _ _ _ (.inr (Nat.le_add_right 64 _))]⟩

/-- The scrub removes the one difference, in KSTAGE. -/
theorem SameForCommands.sealData_eq (s : State) : sealData Q s = sealData P s := by
  obtain ⟨k, hrun⟩ := h.kxuRun_eq hP hQ s.status.mode (nonceOperand s) (dataOperand s.dLen.toNat s) s
  simp only [sealData, hrun, macPort, h.mac_eq]
  rfl

theorem SameForCommands.openVerify_eq (s : State) : openVerify Q s = openVerify P s := by
  obtain ⟨k, hkey⟩ := h.kxuKey_eq hP hQ s.status.mode (nonceOperand s) s
  simp only [openVerify, hkey, macPort, h.mac_eq]
  rfl

theorem SameForCommands.openDecrypt_eq (s : State) : openDecrypt Q s = openDecrypt P s := by
  obtain ⟨k, hdata⟩ :=
    h.kxuData_eq hP hQ s.status.mode (nonceOperand s) (dataOperand (s.dLen.toNat - tagBytes) s) s
  simp only [openDecrypt, hdata]
  rfl

theorem SameForCommands.sealCommand_eq (s : State) : sealCommand Q s = sealCommand P s := by
  simp only [sealCommand, h.adCap_eq, h.dCap_eq, h.sealData_eq hP hQ]

theorem SameForCommands.openCommand_eq (s : State) : openCommand Q s = openCommand P s := by
  simp only [openCommand, openData, h.adCap_eq, h.dCap_eq, h.openVerify_eq hP hQ, h.openDecrypt_eq hP hQ]

end

/-- Settles O29. -/
theorem laneCountHasNoEffect : Obligations.LaneCountHasNoEffect := by
  intro P w s hP hw
  have hQ : Config.Params.Legal { P with lanes := w } := { hP with lanes_mem := hw }
  have hsame : SameForCommands P { P with lanes := w } := ⟨rfl, rfl, rfl, fun _ _ _ _ _ => rfl⟩
  exact ⟨hsame.sealCommand_eq hP hQ s, hsame.openCommand_eq hP hQ s⟩

/-- Settles O30: the outcomes as for the lane count, the data from what a pass returns. -/
theorem keystreamBelow64NeverReachesData : Obligations.KeystreamBelow64NeverReachesData := by
  refine ⟨fun P ks' s hP hks => ?_, fun P ks' mode nonce d s hP hks => ?_⟩
  · have hQ : Config.Params.Legal { P with ks := ks' } := { hP with }
    have hsame : SameForCommands P { P with ks := ks' } := ⟨rfl, rfl, rfl, hks⟩
    exact ⟨hsame.sealCommand_eq hP hQ s, hsame.openCommand_eq hP hQ s⟩
  · have hQ : Config.Params.Legal { P with ks := ks' } := { hP with }
    exact ⟨kxuPass_out_congr hP hQ hks mode nonce d 0 s (Nat.zero_le _),
      kxuPass_out_congr hP hQ hks mode nonce d 64 s le_rfl⟩

/-! ### The positions a command asks for -/

/-- Every keystream request among these calls is for a position below `n`. -/
def RequestsBelow (n : Nat) (cs : List PortCall) : Prop := ∀ c ∈ cs, ∀ mode nonce p, c = .ks mode nonce p → p < n

theorem requestsBelow_append {n : Nat} {cs ds : List PortCall} (hcs : RequestsBelow n cs) (hds : RequestsBelow n ds) :
    RequestsBelow n (cs ++ ds) := fun c hc => (List.mem_append.mp hc).elim (hcs c) (hds c)

theorem requestsBelow_mac (n : Nat) (otk : Vector Byte 32) (m : List Byte) : RequestsBelow n [.mac otk m] := by
  simp [RequestsBelow]

theorem requestsBelow_ksCalls (s : State) (n lo len : Nat) (h : lo + len ≤ n) : RequestsBelow n (ksCalls s lo len) := by
  intro c hc mode nonce p hcp
  subst hcp
  obtain ⟨q, hq, heq⟩ := List.mem_map.mp hc
  cases heq
  exact (List.mem_range'_1.mp hq).2.trans_le h

/-- A command past its checks, its data within DBUF (rules R69, R70). -/
theorem requestsBelow_of_ready (i : Instr) (s t : State) (h : exec i s = .next t) (hready : CallsCollaborators i s) :
    ∃ cs, t.env.calls = s.env.calls ++ cs ∧ RequestsBelow (64 + Config.params.dCap - 16) cs := by
  have hcap := parametersAreLegal.dCap_ge
  rcases hready with ⟨rfl, hready⟩ | ⟨rfl, hready⟩
  · rw [exec_seal_of_ready s hready, sealData_eq_sealDone] at h
    obtain ⟨_, _, hd, _⟩ := hready
    cases h
    exact ⟨sealCalls s, rfl,
      requestsBelow_append (requestsBelow_ksCalls s _ 0 _ (by omega)) (requestsBelow_mac _ _ _)⟩
  · rw [exec_open_of_ready s hready] at h
    obtain ⟨_, _, hd, _, _⟩ := hready
    cases h
    have hverify : RequestsBelow (64 + Config.params.dCap - 16) (verifyCalls s) :=
      requestsBelow_append (requestsBelow_ksCalls s _ 0 64 (by omega)) (requestsBelow_mac _ _ _)
    by_cases hmatch : openTag s = receivedTag s
    · exact ⟨verifyCalls s ++ decryptCalls s, by rw [openData_of_match s hmatch]; rfl,
        requestsBelow_append hverify (requestsBelow_ksCalls s _ 64 _ (by unfold tagBytes; omega))⟩
    · exact ⟨verifyCalls s, by rw [openData_of_mismatch s hmatch]; rfl, hverify⟩

/-- Settles O31, by whether the command gets to its collaborators. -/
theorem requestedPositionsStayBelowTheCap : Obligations.RequestedPositionsStayBelowTheCap := by
  intro i s t h
  by_cases hready : CallsCollaborators i s
  · exact requestsBelow_of_ready i s t h hready
  · exact ⟨[], (calls_eq_of_not_ready i s t h hready).trans (List.append_nil _).symm, nofun⟩

end Sys2Proof.Proofs
end

section

/-! Commands that wait for a collaborator, and the error code of each command by its first failing check
(rules R104, R105). -/

namespace Sys2Proof.Proofs

open Sys2Proof.Machine

/-! ### Waiting -/

/-- Settles O16: past the checks, only the answer of the collaborators is left to decide. -/
theorem commandsWaitForTheirCollaborators : Obligations.CommandsWaitForTheirCollaborators := by
  intro s hready had hsilent
  have hwait : collaboratorsAnswer s = false := Bool.and_eq_false_iff.mpr hsilent
  refine ⟨fun hd => ?_, fun hlong hd => ?_⟩
  · rw [exec, execSeal, sealCommand_past_checks _ s hready had (by omega), hwait]
    rfl
  · rw [exec, execOpen, openCommand_past_checks _ s hready had hd hlong, hwait]
    rfl

/-! ### The first failing check -/

/-- The error code of an answered SEAL (rules R69, R105). -/
theorem errcode_sealCommand (s : State) (hanswer : collaboratorsAnswer s = true) :
    (sealCommand Config.params s).status.errcode =
      if s.status.instValid = false then .notInitialised
      else if s.nonceLen.toNat ≠ nonceSize s then .invalidNonceSize
      else if s.adLen.toNat > Config.params.adCap then .lengthError
      else if s.dLen.toNat > Config.params.dCap - 16 then .lengthError
      else .ok := by
  split_ifs with hinst hnonce had hd
  · rw [sealCommand_notInitialised _ s hinst]
    rfl
  all_goals rw [Bool.not_eq_false] at hinst
  · rw [sealCommand_badNonce _ s hinst hnonce]
    rfl
  all_goals have hready : NonceReady s := ⟨hinst, not_not.mp hnonce⟩
  · rw [sealCommand_lengthError _ s hready (.inl had)]
    rfl
  · rw [sealCommand_lengthError _ s hready (.inr hd)]
    rfl
  · rw [sealCommand_past_checks _ s hready (not_lt.mp had) (not_lt.mp hd), if_pos hanswer, sealData_eq_sealDone]
    rfl

/-- The error code of an OPEN past its checks is its verdict (rule R70). -/
theorem errcode_openData (s : State) :
    (openData Config.params s).status.errcode = if openTag s ≠ receivedTag s then .authFailed else .ok := by
  split_ifs with hmismatch
  · rw [openData_of_mismatch s hmismatch]
    rfl
  · rw [openData_of_match s (not_not.mp hmismatch)]
    rfl

/-- The error code of an answered OPEN (rules R70, R71, R105). -/
theorem errcode_openCommand (s : State) (hanswer : collaboratorsAnswer s = true) :
    (openCommand Config.params s).status.errcode =
      if s.status.instValid = false then .notInitialised
      else if s.nonceLen.toNat ≠ nonceSize s then .invalidNonceSize
      else if s.adLen.toNat > Config.params.adCap then .lengthError
      else if s.dLen.toNat > Config.params.dCap then .lengthError
      else if s.dLen.toNat < 16 then .authFailed
      else if openTag s ≠ receivedTag s then .authFailed
      else .ok := by
  split_ifs with hinst hnonce had hd hshort hmismatch
  · rw [openCommand_notInitialised _ s hinst]
    rfl
  all_goals rw [Bool.not_eq_false] at hinst
  · rw [openCommand_badNonce _ s hinst hnonce]
    rfl
  all_goals have hready : NonceReady s := ⟨hinst, not_not.mp hnonce⟩
  · rw [openCommand_lengthError _ s hready (.inl had)]
    rfl
  · rw [openCommand_lengthError _ s hready (.inr hd)]
    rfl
  · rw [openCommand_short _ s hready (not_lt.mp had) (not_lt.mp hd) hshort]
    rfl
  all_goals
    rw [openCommand_past_checks _ s hready (not_lt.mp had) (not_lt.mp hd) (not_lt.mp hshort), if_pos hanswer,
      errcode_openData]
  · exact if_pos hmismatch
  · exact if_neg hmismatch

/-- The error code of an INIT is that of its key check (rule R68). -/
theorem errcode_initCommand (s : State) :
    (initCommand s).status.errcode = if s.keyLenIn ≠ 32#16 then .invalidKeySize else .ok := by
  unfold initCommand
  split_ifs <;> rfl

/-- Settles O18: the write by the cases of `cmdWrite`, the command by its own chain of checks, the resets as in O55. -/
theorem theFirstConditionDecides : Obligations.TheFirstConditionDecides := by
  obtain ⟨hhard, hsoft, _⟩ := bothResetsRestoreEveryField
  refine ⟨fun s w hfault => ?_, fun s w hfault hbusy => ?_, fun s w hfault hidle => ?_, fun s t hanswer h => ?_, hhard,
    fun s v hbit => (hsoft s .word v hbit).2⟩
  · rw [cmdWrite, if_pos hfault]
  · simp [cmdWrite, hfault, hbusy, Status.overrun]
  · simp [cmdWrite, hfault, hidle, Status.accepted]
  · obtain ⟨_, _, _, _, _, hillegal⟩ := onlyFiveWordsAreCommands s.pendOpc
    have hword := (encode_decodeWord s.pendOpc).symm
    generalize decodeWord s.pendOpc = i at h hillegal hword
    cases i with
    | nop | zeroize =>
      cases h
      rw [hword]
      rfl
    | init =>
      cases h
      simp [errcode_initCommand, hword, encode, cmdWord]
    | sealCmd =>
      cases h
      simp [errcode_sealCommand s hanswer, hword, encode, cmdWord]
    | openCmd =>
      cases h
      simp [errcode_openCommand s hanswer, hword, encode, cmdWord]
    | illegal rsvd opc =>
      cases h
      rw [if_pos (hillegal.mp ⟨rsvd, opc, rfl⟩)]
      rfl

end Sys2Proof.Proofs
end

section

/-! The interrupt line, the steps that reset the block, and the FAULT state (rules R101, R109, R113, R114, R122). -/

namespace Sys2Proof.Proofs

open Sys2Proof.Machine

/-! ### The interrupt line -/

/-- A completion sets DONE, so the line shows IE (rules R64, R109). -/
theorem afxIrq_finish (code : ErrCode) (s : State) : (finish code s).afxIrq = s.cfg.ie := Bool.true_and _

/-- However a command ends, unless it waits, the line shows IE. -/
theorem afxIrq_of_ends {i : Instr} {s t : State} (h : Ends s i t) (hbusy : s.status.busy = true)
    (hidle : t.status.busy = false) : t.afxIrq = s.cfg.ie := by
  cases h with
  | waiting _ hi => exact absurd (hidle.symm.trans hbusy) (by decide)
  | faulted _ hi hinst => exact Bool.true_and _
  | _ => exact afxIrq_finish _ _

/-- Settles O38, by what each operation does to DONE. -/
theorem interruptFollowsDone : Obligations.InterruptFollowsDone := by
  refine ⟨fun s => Bool.and_eq_true_iff, fun i s t h hidle hbusy => afxIrq_of_ends (ends_of_exec i s t h) hbusy hidle,
    fun w s => ⟨rfl, rfl⟩, fun v s hbit => ?_, fun s => rfl⟩
  have hal : (Access.write 0x00C#23 .word v).aligned = true := by
    simp [Access.aligned, Access.offset, Access.bytes, Size.bytes]
  rw [statusWriteClearsDoneAndBovr s 0x00C#23 .word v (by decide) (by decide) hal, hbit]
  simp [State.afxIrq]

/-! ### Resets and the FAULT state -/

/-- The access that triggers the soft reset resets the block (rules R24, R114). -/
theorem perform_of_isSoftReset (a : Access) (s : State) (h : isSoftReset a = true) :
    perform Config.params a s = respond (okay 0#32) (resetBlock s) := by
  obtain ⟨_, hsoft, _⟩ := bothResetsRestoreEveryField
  cases a with
  | read off size => cases h
  | write off size v =>
    obtain ⟨hoff, hbit⟩ : off.toNat = 0x010 ∧ v.getLsbD 0 = true := by simpa [isSoftReset] using h
    obtain rfl : off = 0x010#23 := BitVec.eq_of_toNat_eq hoff
    exact (hsoft s size v hbit).2

/-- A step that resets the block, by either reset, leaves STATUS as at reset (rules R113, R114). -/
theorem status_of_resetsNow (s t : State) (hreset : resetsNow s = true) (hstep : step s = .next t) :
    t.status = State.reset.status := by
  rcases turn_cases s with
    ⟨rest, _, _, hturn⟩ | ⟨_, hno, _⟩ | ⟨_, hno, _⟩ | ⟨_, _, hno, _⟩ | ⟨a, e, hsoft, _, _, _, hturn⟩
  · obtain rfl : resetBlock (popEvent rest s) = t := by simpa [step_of_moved s _ hturn] using hstep
    rfl
  case inr.inr.inr.inr =>
    obtain rfl : perform Config.params a (s.setEnv e) = t := by simpa [step_of_moved s _ hturn] using hstep
    rw [perform_of_isSoftReset a _ (hsoft.symm.trans hreset)]
    rfl
  all_goals exact absurd (hno.symm.trans hreset) (by decide)

/-- A block in FAULT is not BUSY, so the engine has no command to complete (rule R101). -/
theorem not_engineMoves_of_fault (s : State) (hs : Invariant s) (hfault : s.status.fault = true) : ¬engineMoves s := by
  intro hengine
  obtain ⟨t, hstep⟩ := step_total s
  have hbusy := (ends_of_engineMoves s t hstep hengine).1
  exact absurd (hfault.symm.trans (no_fault_of_busy hs hbusy)) (by decide)

/-- Settles O40: in FAULT the block is idle, so neither the hold nor the engine is there, and only a reset clears FAULT. -/
theorem faultLastsUntilReset : Obligations.FaultLastsUntilReset := by
  refine ⟨fun s w hfault => ?_, fun s a hs hfault => ?_, fun s t hs hfault hno hstep => ?_, fun s t hreset hstep => ?_⟩
  · rw [cmdWriteIsHandledByItsCase s w, if_pos hfault]
  · exact heldNow_of_idle _ s a (hs.faultLocked hfault).1
  · obtain ⟨_, _, hkept, _⟩ :=
      resultFieldsChangeOnlyAtCompletion s t hstep hno (not_engineMoves_of_fault s hs hfault)
    have hfault' : t.status.fault = true := hkept.trans hfault
    obtain ⟨hidle, hcode, _⟩ := (everyStepKeepsTheInvariant s t hs hstep).faultLocked hfault'
    exact ⟨hfault', hidle, hcode⟩
  · rw [status_of_resetsNow s t hreset hstep]
    rfl

end Sys2Proof.Proofs
end

section

/-! BOVR: a CMD write that finds the block BUSY sets it, and only a reset or a STATUS write with bit 6 = 1 clears it
(rules R22, R44, R118). -/

namespace Sys2Proof.Proofs

open Sys2Proof.Machine

theorem eq_three_of_regAt_status (w : Nat) (h : regAt w = .reg .status) : w = 3 := by
  have hsmall : ∀ w < 12, regAt w = .reg .status → w = 3 := by decide
  rcases Nat.lt_or_ge w 12 with hw | hw
  · exact hsmall w hw h
  · simp [regAt_of_ge w hw] at h

theorem div_four_of_regionOf_status (P : Config.Params) (off : Nat) (h : regionOf P off = .reg .status) :
    off / 4 = 3 := by
  unfold regionOf at h
  split_ifs at h with hpage hnonce
  exact eq_three_of_regAt_status (off / 4) h

/-! ### What keeps BOVR, and the two writes that do not -/

/-- No command touches BOVR (rules R64, R101). -/
theorem bovr_of_ends {i : Instr} {s t : State} (h : Ends s i t) : t.status.bovr = s.status.bovr := by
  cases h <;> rfl

theorem bovr_cmdWrite (w : Word) (s : State) (hset : s.status.bovr = true) : (cmdWrite w s).status.bovr = true := by
  rcases cmdWrite_cases w s with ⟨_, h⟩ | ⟨_, _, h⟩ | ⟨_, _, h⟩ <;> rw [h]
  · exact hset
  · rfl
  · exact hset

/-- A register write clears BOVR only through byte 0 of CTRL, by the soft reset, or of STATUS (rules R22, R24, R44). -/
theorem writeReg_clears_bovr (r : Reg) (off n : Nat) (v : Word) (s : State) (hn : 0 < n) (hset : s.status.bovr = true)
    (hclear : (writeReg r off n v s).status.bovr = false) :
    off % 4 = 0 ∧ (r = .ctrl ∧ v.getLsbD 0 = true ∨ r = .status ∧ v.getLsbD 6 = true) := by
  cases r with
  | ctrl =>
    rw [writeReg, laneWord_low_bit off n 0 v hn (by decide)] at hclear
    split at hclear
    case isTrue hbit => simpa using hbit
    case isFalse => exact absurd (hset.symm.trans hclear) (by decide)
  | status =>
    rw [writeReg, cleared_laneWord off n v s.status hn] at hclear
    simpa [hset] using hclear
  | cmd =>
    rw [writeReg] at hclear
    split at hclear
    · exact absurd ((bovr_cmdWrite v s hset).symm.trans hclear) (by decide)
    · exact absurd (hset.symm.trans hclear) (by decide)
  | _ => exact absurd (hset.symm.trans hclear) (by decide)

theorem writeAt_clears_bovr (P : Config.Params) (off n : Nat) (v : Word) (s : State) (hn : 0 < n)
    (hset : s.status.bovr = true) (hclear : (writeAt P off n v s).status.bovr = false) :
    off = 0x010 ∧ v.getLsbD 0 = true ∨ off = 0x00C ∧ v.getLsbD 6 = true := by
  unfold writeAt at hclear
  split at hclear
  case h_1 r hreg =>
    obtain ⟨hbyte, ⟨rfl, hbit⟩ | ⟨rfl, hbit⟩⟩ := writeReg_clears_bovr r off n v s hn hset hclear
    · have hword := div_four_of_regionOf_ctrl P off hreg
      exact .inl ⟨by omega, hbit⟩
    · have hword := div_four_of_regionOf_status P off hreg
      exact .inr ⟨by omega, hbit⟩
  all_goals exact absurd (hset.symm.trans hclear) (by decide)

/-- An access that clears BOVR is the soft reset, or a write of 1 to bit 6 of STATUS (rules R114, R118). -/
theorem perform_clears_bovr (P : Config.Params) (a : Access) (s : State) (hset : s.status.bovr = true)
    (hclear : (perform P a s).status.bovr = false) :
    isSoftReset a = true ∨ ∃ (size : Size) (v : Word), a = .write 0x00C#23 size v ∧ v.getLsbD 6 = true := by
  rcases perform_cases P a s with ⟨_, h⟩ | ⟨off, size, _, h⟩ | ⟨off, size, v, rfl, _, h⟩ <;>
    rw [h, respond_status] at hclear
  · exact absurd (hset.symm.trans hclear) (by decide)
  · exact absurd (hset.symm.trans hclear) (by decide)
  · rcases writeAt_clears_bovr P off.toNat size.bytes v s (size_bytes_pos size) hset hclear with
      ⟨hoff, hbit⟩ | ⟨hoff, hbit⟩
    · exact .inl (by rw [isSoftReset, hoff, hbit]; rfl)
    · exact .inr ⟨size, v, by rw [show off = 0x00C#23 from BitVec.eq_of_toNat_eq hoff], hbit⟩

/-- A step that clears BOVR resets the block or serves the STATUS write that clears it: the engine's step and the moves of
the environment alone keep it. -/
theorem step_clears_bovr (s t : State) (hstep : step s = .next t) (hset : s.status.bovr = true)
    (hclear : t.status.bovr = false) :
    resetsNow s = true ∨
      ∃ (size : Size) (v : Word), served s = some (.write 0x00C#23 size v) ∧ v.getLsbD 6 = true := by
  rcases turn_cases s with
    ⟨_, _, hreset, _⟩ | ⟨e, _, _, _, hturn⟩ | ⟨e, _, _, _, _, _, _, _, hturn⟩ | ⟨a, e, _, _, _, _, hturn⟩ |
    ⟨a, e, hsoft, hserved, _, _, hturn⟩
  · exact .inl hreset
  · obtain rfl : s.setEnv e = t := by simpa [step_of_moved s _ hturn] using hstep
    exact absurd (hset.symm.trans hclear) (by decide)
  · rw [step_of_engine s _ hturn] at hstep
    have hkept := bovr_of_ends (ends_of_exec _ _ _ hstep)
    exact absurd (hset.symm.trans (hkept.symm.trans hclear)) (by decide)
  · obtain rfl : s.setEnv e = t := by simpa [step_of_moved s _ hturn] using hstep
    exact absurd (hset.symm.trans hclear) (by decide)
  · obtain rfl : perform Config.params a (s.setEnv e) = t := by simpa [step_of_moved s _ hturn] using hstep
    rcases perform_clears_bovr Config.params a (s.setEnv e) hset hclear with hreset | ⟨size, v, rfl, hbit⟩
    · exact .inl (hsoft.trans hreset)
    · exact .inr ⟨size, v, hserved, hbit⟩

/-- Settles O39: the write by its case of R63, the persistence by who moves in the step. -/
theorem overrunSetsBovrUntilCleared : Obligations.OverrunSetsBovrUntilCleared := by
  refine ⟨fun s w hfault hbusy => ?_, step_clears_bovr⟩
  rw [cmdWriteIsHandledByItsCase s w, if_neg (Bool.eq_false_iff.mp hfault), if_pos hbusy]

end Sys2Proof.Proofs
end
